-- ==== Sys2Proof/Word.lean ====
section
/-! DEFINITION. The word, byte and register-index types (00_scope.md R7, 30_encoding.md R59). -/

namespace Sys2Proof

/-- A word: 16 bits, unsigned, bit 0 least significant (R7). Addition on words is modulo 2^16 (R8). -/
abbrev Word := BitVec 16

/-- A byte: 8 bits (R7). -/
abbrev Byte := BitVec 8

/-- A register field: a 3-bit index naming R0 to R7 (R59). Three bits cannot hold an index of the PC
or of COND, so the internal-invariant stop of R14 and R110 has no counterpart. -/
abbrev Reg := BitVec 3

end Sys2Proof
end

