-- ==== Sys2Proof/Syntax.lean ====
section
/-! DEFINITION. The instructions: one constructor per row of spec/opcode_table.json. -/

namespace Sys2Proof

/-- An instruction with the fields of 30_encoding.md R57, uninterpreted: offsets and immediates are
the field's own bits, extended only where a meaning uses them (R58). `ign` holds the bits the decoder
ignores (R61), high bits first where there are two runs; no meaning reads them, except that the fatal
instructions record their whole word (R103, R104, R105). -/
inductive Instr where
  /-- BR: the mask bits n, z, p and offset9 (R81). -/
  | br (n z p : Bool) (off : BitVec 9)
  /-- ADD, register form (R78). -/
  | add (dr sr1 sr2 : Reg) (ign : BitVec 2)
  /-- ADD, immediate form (R78). -/
  | addi (dr sr1 : Reg) (imm : BitVec 5)
  /-- LD (R85). -/
  | ld (dr : Reg) (off : BitVec 9)
  /-- ST (R89). -/
  | st (sr : Reg) (off : BitVec 9)
  /-- JSRR: opcode 0100 with bit 11 clear (R84). -/
  | jsrr (base : Reg) (ignHi : BitVec 2) (ignLo : BitVec 6)
  /-- JSR: opcode 0100 with bit 11 set (R83). -/
  | jsr (off : BitVec 11)
  /-- AND, register form (R79). -/
  | and (dr sr1 sr2 : Reg) (ign : BitVec 2)
  /-- AND, immediate form (R79). -/
  | andi (dr sr1 : Reg) (imm : BitVec 5)
  /-- LDR (R87). -/
  | ldr (dr base : Reg) (off : BitVec 6)
  /-- STR (R91). -/
  | str (sr base : Reg) (off : BitVec 6)
  /-- RTI: unsupported, fatal (R104). -/
  | rti (ign : BitVec 12)
  /-- NOT (R80). -/
  | not (dr sr : Reg) (ign : BitVec 6)
  /-- LDI (R86). -/
  | ldi (dr : Reg) (off : BitVec 9)
  /-- STI (R90). -/
  | sti (sr : Reg) (off : BitVec 9)
  /-- JMP; RET is JMP R7 (R82, R67). -/
  | jmp (base : Reg) (ignHi : BitVec 3) (ignLo : BitVec 6)
  /-- RES: reserved, fatal (R105). -/
  | res (ign : BitVec 12)
  /-- LEA (R88). -/
  | lea (dr : Reg) (off : BitVec 9)
  /-- TRAP x20, GETC (R96). -/
  | trapGetc (ign : BitVec 4)
  /-- TRAP x21, OUT (R97). -/
  | trapOut (ign : BitVec 4)
  /-- TRAP x22, PUTS (R98). -/
  | trapPuts (ign : BitVec 4)
  /-- TRAP x23, IN (R99, R100). -/
  | trapIn (ign : BitVec 4)
  /-- TRAP x24, PUTSP (R101). -/
  | trapPutsp (ign : BitVec 4)
  /-- TRAP x25, HALT (R102). -/
  | trapHalt (ign : BitVec 4)
  /-- TRAP with any other vector: fatal (R103). -/
  | trapOther (ign : BitVec 4) (vector : Byte)
  deriving DecidableEq, Repr

end Sys2Proof
end

