-- ==== Sys2Proof/WellFormed.lean ====
section
/-! DEFINITION. Which terms of `Instr` stand for a word. The field widths are in the types; the one
check left is that TRAP_OTHER holds no vector of the six services (45_trap.md R92, R103). -/

namespace Sys2Proof

/-- The vectors of the six trap services, 0x20 to 0x25 (R92). -/
def isServiceVector (v : Byte) : Bool :=
  v = 0x20#8 || v = 0x21#8 || v = 0x22#8 || v = 0x23#8 || v = 0x24#8 || v = 0x25#8

/-- The check of a term: every term but a TRAP_OTHER with a service's vector stands for a word. -/
def Instr.wf : Instr → Bool
  | .br _ _ _ _ => true
  | .add _ _ _ _ => true
  | .addi _ _ _ => true
  | .ld _ _ => true
  | .st _ _ => true
  | .jsrr _ _ _ => true
  | .jsr _ => true
  | .and _ _ _ _ => true
  | .andi _ _ _ => true
  | .ldr _ _ _ => true
  | .str _ _ _ => true
  | .rti _ => true
  | .not _ _ _ => true
  | .ldi _ _ => true
  | .sti _ _ => true
  | .jmp _ _ _ => true
  | .res _ => true
  | .lea _ _ => true
  | .trapGetc _ => true
  | .trapOut _ => true
  | .trapPuts _ => true
  | .trapIn _ => true
  | .trapPutsp _ => true
  | .trapHalt _ => true
  | .trapOther _ v => !isServiceVector v

end Sys2Proof
end

