-- ==== Sys2Proof/Decode.lean ====
section
/-! DEFINITION. Decoding (30_encoding.md R55 to R65) and, after it, encoding; the byte order of the
image (20_memory.md R37, 70_reset_and_hazards.md R124). -/

namespace Sys2Proof

/-! ## Bytes and words -/

/-- Bits 7:0 of a word. -/
def lowByte (w : Word) : Byte := w.extractLsb' 0 8

/-- Bits 15:8 of a word. -/
def highByte (w : Word) : Byte := w.extractLsb' 8 8

/-- `(high << 8) | low` (R37, R124). -/
def wordOfBytes (high low : Byte) : Word := high ++ low

/-- A word as the image's two bytes, high byte first (R37). -/
def bytesOfWord (w : Word) : List Byte := [highByte w, lowByte w]

/-! ## The fields of R57 -/

/-- The opcode, bits 15:12 (R55). -/
def opcodeOf (w : Word) : BitVec 4 := w.extractLsb' 12 4

/-- DR, or the SR of a store: bits 11:9. -/
def field11to9 (w : Word) : Reg := w.extractLsb' 9 3

/-- SR1, BaseR, or NOT's SR: bits 8:6. -/
def field8to6 (w : Word) : Reg := w.extractLsb' 6 3

/-- SR2: bits 2:0. -/
def field2to0 (w : Word) : Reg := w.extractLsb' 0 3

/-- imm5: bits 4:0. -/
def imm5Of (w : Word) : BitVec 5 := w.extractLsb' 0 5

/-- offset6: bits 5:0 (also the ignored bits 5:0 of NOTF, JMPF, JSRRF). -/
def offset6Of (w : Word) : BitVec 6 := w.extractLsb' 0 6

/-- offset9: bits 8:0. -/
def offset9Of (w : Word) : BitVec 9 := w.extractLsb' 0 9

/-- offset11: bits 10:0. -/
def offset11Of (w : Word) : BitVec 11 := w.extractLsb' 0 11

/-- Bits 11:0, all ignored by RTI and RES. -/
def low12Of (w : Word) : BitVec 12 := w.extractLsb' 0 12

/-- Bits 11:8, ignored by TRAP. -/
def field11to8 (w : Word) : BitVec 4 := w.extractLsb' 8 4

/-! ## Decoding one word -/

/-- Opcode 0x1: bit 5 selects the second operand (R60). -/
def decodeAdd (w : Word) : Instr :=
  if w.getLsbD 5 then .addi (field11to9 w) (field8to6 w) (imm5Of w)
  else .add (field11to9 w) (field8to6 w) (field2to0 w) (w.extractLsb' 3 2)

/-- Opcode 0x5: bit 5 selects the second operand (R60). -/
def decodeAnd (w : Word) : Instr :=
  if w.getLsbD 5 then .andi (field11to9 w) (field8to6 w) (imm5Of w)
  else .and (field11to9 w) (field8to6 w) (field2to0 w) (w.extractLsb' 3 2)

/-- Opcode 0x4: bit 11 selects JSR or JSRR (R60). -/
def decodeJsr (w : Word) : Instr :=
  if w.getLsbD 11 then .jsr (offset11Of w)
  else .jsrr (field8to6 w) (w.extractLsb' 9 2) (offset6Of w)

/-- Opcode 0xF: the vector, bits 7:0, selects the service (R92). -/
def decodeTrap (w : Word) : Instr :=
  if lowByte w = 0x20#8 then .trapGetc (field11to8 w)
  else if lowByte w = 0x21#8 then .trapOut (field11to8 w)
  else if lowByte w = 0x22#8 then .trapPuts (field11to8 w)
  else if lowByte w = 0x23#8 then .trapIn (field11to8 w)
  else if lowByte w = 0x24#8 then .trapPutsp (field11to8 w)
  else if lowByte w = 0x25#8 then .trapHalt (field11to8 w)
  else .trapOther (field11to8 w) (lowByte w)

/-- The decode of a word: total, a function of the word alone (R64, R65), by the opcode map of R56.
The words R62 calls illegal decode to RTI, RES and TRAP_OTHER, whose meaning is the fault. -/
def decodeWord (w : Word) : Instr :=
  match (opcodeOf w).toNat with
  | 0 => .br (w.getLsbD 11) (w.getLsbD 10) (w.getLsbD 9) (offset9Of w)
  | 1 => decodeAdd w
  | 2 => .ld (field11to9 w) (offset9Of w)
  | 3 => .st (field11to9 w) (offset9Of w)
  | 4 => decodeJsr w
  | 5 => decodeAnd w
  | 6 => .ldr (field11to9 w) (field8to6 w) (offset6Of w)
  | 7 => .str (field11to9 w) (field8to6 w) (offset6Of w)
  | 8 => .rti (low12Of w)
  | 9 => .not (field11to9 w) (field8to6 w) (offset6Of w)
  | 10 => .ldi (field11to9 w) (offset9Of w)
  | 11 => .sti (field11to9 w) (offset9Of w)
  | 12 => .jmp (field8to6 w) (field11to9 w) (offset6Of w)
  | 13 => .res (low12Of w)
  | 14 => .lea (field11to9 w) (offset9Of w)
  | _ => decodeTrap w

/-! ## Decoding bytes -/

/-- Why a byte string gives no instruction. -/
inductive DecodeReject where
  /-- Fewer than the two bytes of a word (R55, R125). -/
  | truncatedWord
  deriving DecidableEq, Repr

/-- Decodes the first instruction of the image's bytes (R37: high byte first) and answers the rest. -/
def decode : List Byte → Except DecodeReject (Instr × List Byte)
  | high :: low :: rest => .ok (decodeWord (wordOfBytes high low), rest)
  | [_] => .error .truncatedWord
  | [] => .error .truncatedWord

/-- The word whose low `nbits` bits are `w`'s and whose other bits are 0. -/
def tableWord (nbits w : Nat) : Word := BitVec.ofNat 16 (w % 2 ^ nbits)

/-- The instruction the decoder reads from the word `w` of opcode_table.json's numbering. -/
def decodeTableWord (nbits w : Nat) : Option Instr :=
  match decode (bytesOfWord (tableWord nbits w)) with
  | .ok (i, _) => some i
  | .error _ => none

/-! ## Encoding -/

/-- The word of an instruction, from the format table of R57 and the opcode map of R56. -/
def encode : Instr → Word
  | .br n z p off => 0x0#4 ++ BitVec.ofBool n ++ BitVec.ofBool z ++ BitVec.ofBool p ++ off
  | .add dr sr1 sr2 ign => 0x1#4 ++ dr ++ sr1 ++ 0#1 ++ ign ++ sr2
  | .addi dr sr1 imm => 0x1#4 ++ dr ++ sr1 ++ 1#1 ++ imm
  | .ld dr off => 0x2#4 ++ dr ++ off
  | .st sr off => 0x3#4 ++ sr ++ off
  | .jsrr base ignHi ignLo => 0x4#4 ++ 0#1 ++ ignHi ++ base ++ ignLo
  | .jsr off => 0x4#4 ++ 1#1 ++ off
  | .and dr sr1 sr2 ign => 0x5#4 ++ dr ++ sr1 ++ 0#1 ++ ign ++ sr2
  | .andi dr sr1 imm => 0x5#4 ++ dr ++ sr1 ++ 1#1 ++ imm
  | .ldr dr base off => 0x6#4 ++ dr ++ base ++ off
  | .str sr base off => 0x7#4 ++ sr ++ base ++ off
  | .rti ign => 0x8#4 ++ ign
  | .not dr sr ign => 0x9#4 ++ dr ++ sr ++ ign
  | .ldi dr off => 0xA#4 ++ dr ++ off
  | .sti sr off => 0xB#4 ++ sr ++ off
  | .jmp base ignHi ignLo => 0xC#4 ++ ignHi ++ base ++ ignLo
  | .res ign => 0xD#4 ++ ign
  | .lea dr off => 0xE#4 ++ dr ++ off
  | .trapGetc ign => 0xF#4 ++ ign ++ 0x20#8
  | .trapOut ign => 0xF#4 ++ ign ++ 0x21#8
  | .trapPuts ign => 0xF#4 ++ ign ++ 0x22#8
  | .trapIn ign => 0xF#4 ++ ign ++ 0x23#8
  | .trapPutsp ign => 0xF#4 ++ ign ++ 0x24#8
  | .trapHalt ign => 0xF#4 ++ ign ++ 0x25#8
  | .trapOther ign v => 0xF#4 ++ ign ++ v

/-! ## The opcode table -/

/-- A row of opcode_table.json: the fixed bits and their value. -/
structure OpcodeRow where
  mnemonic : String
  mask : Word
  pattern : Word
  deriving DecidableEq, Repr

/-- A word has the row's fixed bits. -/
def OpcodeRow.matchesWord (r : OpcodeRow) (w : Word) : Bool := w &&& r.mask == r.pattern

/-- The 25 rows of opcode_table.json, in its order, with its "mask" and "match". TRAP_OTHER is last:
it applies only when no other row does (INDEX.md). -/
def opcodeTable : List OpcodeRow :=
  [⟨"BR", 0xF000#16, 0x0000#16⟩, ⟨"ADD", 0xF020#16, 0x1000#16⟩, ⟨"ADDI", 0xF020#16, 0x1020#16⟩,
   ⟨"LD", 0xF000#16, 0x2000#16⟩, ⟨"ST", 0xF000#16, 0x3000#16⟩, ⟨"JSRR", 0xF800#16, 0x4000#16⟩,
   ⟨"JSR", 0xF800#16, 0x4800#16⟩, ⟨"AND", 0xF020#16, 0x5000#16⟩, ⟨"ANDI", 0xF020#16, 0x5020#16⟩,
   ⟨"LDR", 0xF000#16, 0x6000#16⟩, ⟨"STR", 0xF000#16, 0x7000#16⟩, ⟨"RTI", 0xF000#16, 0x8000#16⟩] ++
  [⟨"NOT", 0xF000#16, 0x9000#16⟩, ⟨"LDI", 0xF000#16, 0xA000#16⟩, ⟨"STI", 0xF000#16, 0xB000#16⟩,
   ⟨"JMP", 0xF000#16, 0xC000#16⟩, ⟨"RES", 0xF000#16, 0xD000#16⟩, ⟨"LEA", 0xF000#16, 0xE000#16⟩,
   ⟨"TRAP_GETC", 0xF0FF#16, 0xF020#16⟩, ⟨"TRAP_OUT", 0xF0FF#16, 0xF021#16⟩,
   ⟨"TRAP_PUTS", 0xF0FF#16, 0xF022#16⟩, ⟨"TRAP_IN", 0xF0FF#16, 0xF023#16⟩,
   ⟨"TRAP_PUTSP", 0xF0FF#16, 0xF024#16⟩, ⟨"TRAP_HALT", 0xF0FF#16, 0xF025#16⟩,
   ⟨"TRAP_OTHER", 0xF000#16, 0xF000#16⟩]

/-- The table's mnemonic of an instruction. -/
def Instr.mnemonic : Instr → String
  | .br _ _ _ _ => "BR"
  | .add _ _ _ _ => "ADD"
  | .addi _ _ _ => "ADDI"
  | .ld _ _ => "LD"
  | .st _ _ => "ST"
  | .jsrr _ _ _ => "JSRR"
  | .jsr _ => "JSR"
  | .and _ _ _ _ => "AND"
  | .andi _ _ _ => "ANDI"
  | .ldr _ _ _ => "LDR"
  | .str _ _ _ => "STR"
  | .rti _ => "RTI"
  | .not _ _ _ => "NOT"
  | .ldi _ _ => "LDI"
  | .sti _ _ => "STI"
  | .jmp _ _ _ => "JMP"
  | .res _ => "RES"
  | .lea _ _ => "LEA"
  | .trapGetc _ => "TRAP_GETC"
  | .trapOut _ => "TRAP_OUT"
  | .trapPuts _ => "TRAP_PUTS"
  | .trapIn _ => "TRAP_IN"
  | .trapPutsp _ => "TRAP_PUTSP"
  | .trapHalt _ => "TRAP_HALT"
  | .trapOther _ _ => "TRAP_OTHER"

end Sys2Proof
end

