-- ==== Sys2Proof/Config.lean ====
section
/-! DEFINITION. The fixed values and the named parameters of 00_scope.md R5. -/

namespace Sys2Proof.Config

/-- KBSR_ADDR: the keyboard status register (R5, R30). -/
def kbsrAddr : Word := 0xFE00#16

/-- KBDR_ADDR: the keyboard data register (R5, R30). -/
def kbdrAddr : Word := 0xFE02#16

/-- MEM_WORDS: 2^16 words, one for each address (R5, R28). -/
def memWords : Nat := 65536

/-- HALT_EXIT_CODE: the exit code of `Halted`, which means success (R5, R49). -/
def haltExitCode : Int := 1

/-- The parameters of R5 that a step reads. The spec leaves them OPEN: a claim holds for every value
unless it names one. They stand in `State` because `step` has no other argument (log 1). -/
structure Params where
  /-- TRAP_WRITES_R7: a supported TRAP writes the return address to R7 (R93). -/
  trapWritesR7 : Bool
  /-- TRAP_INPUT_SETS_FLAGS: GETC and IN set COND from R0 (R18). -/
  trapInputSetsFlags : Bool
  /-- IN_PROMPT: the bytes IN prints before it waits (R99). -/
  inPrompt : List Byte
  /-- PUTSP_ZERO_HIGH_ENDS_STRING: a zero high byte in a nonzero word ends a PUTSP string (R101). -/
  putspZeroHighEnds : Bool
  /-- FATAL_EXIT_CODE: the exit code of `Faulted`, neither 0 nor 1 (R49). -/
  fatalExitCode : Int
  deriving DecidableEq, Repr

/-- The one constraint R5 sets on a parameter: FATAL_EXIT_CODE is an integer other than 0 and 1. -/
abbrev Params.wf (p : Params) : Prop := p.fatalExitCode ≠ 0 ∧ p.fatalExitCode ≠ 1

/-- The defaults of R5 (log 5). R5 gives FATAL_EXIT_CODE none: 2 is a DESIGN CHOICE, unsafe where a
claim would rest on the number (log 4). -/
def defaultParams : Params :=
  { trapWritesR7 := false, trapInputSetsFlags := false, inPrompt := [], putspZeroHighEnds := true,
    fatalExitCode := 2 }

end Sys2Proof.Config
end

