-- ==== Sys2Proof/Machine/State.lean ====
section
/-! DEFINITION. The state of the block (10_state.md), its reset value, and the reasons a step can stop. -/

namespace Sys2Proof.Machine

/-- Memory: the words that are not zero, by word address, addresses rising (`Memory.wf`). The spec's
memory has word addresses only (R28, R37), so a cell holds a word (log 6). An address that is not
listed reads as 0x0000, the spec's zero-initialised content (R122). -/
structure Memory where
  cells : List (Nat × Word)
  deriving DecidableEq, Repr

/-- A fatal condition with the info it records (60_exceptions.md R106, R108). -/
inductive FatalCondition where
  /-- Raised by RTI and RES (R104, R105). -/
  | unsupportedOpcode (opcode : BitVec 4) (word : Word) (pc : Word)
  /-- Raised by TRAP with a vector outside 0x20 to 0x25 (R103). -/
  | unsupportedTrap (vector : Byte) (word : Word) (pc : Word)
  /-- Raised by GETC and IN when the input has ended (R96, R100). -/
  | inputExhausted (vector : Byte) (pc : Word)
  /-- Raised by PUTS and PUTSP when the scan reaches 0xFE00 (R95). -/
  | stringReadOfDevice (addr : Word) (pc : Word)
  deriving DecidableEq, Repr

/-- The run state (R22). -/
inductive RunState where
  /-- The next step is a fetch. -/
  | running
  /-- IN has printed its prompt and waits for its byte. -/
  | inWait
  /-- HALT has run: final. -/
  | halted
  /-- A fatal condition was raised: final. -/
  | faulted (condition : FatalCondition)
  deriving DecidableEq, Repr

/-- One entry of the console output (R24). -/
inductive OutEvent where
  | byte (b : Byte)
  | flushMark
  deriving DecidableEq, Repr

/-- The state of the block (10_state.md). `regs` are R0 to R7 (R13), `cond` is COND (R16), `mem` is M
with KBSR and KBDR in it (R28, R30), `run` is the run state (R22), `inQ` and `inEnd` are the console
input (R23), `out` is the console output, oldest first (R24). `params` is the model's own: the
parameters of R5, which no step changes (log 1). -/
structure State where
  regs : Vector Word 8
  pc : Word
  cond : Word
  mem : Memory
  run : RunState
  inQ : List Byte
  inEnd : Bool
  out : List OutEvent
  params : Config.Params
  deriving DecidableEq, Repr

/-- Why the machine stops: the core takes no step from a final state (R73). Nothing else faults: the
spec's fatal conditions are entered as the state `faulted` (R107, log 8). -/
inductive Fault where
  /-- Raised by `step` in state `halted`. Safe: the spec's core takes no step there. -/
  | halted
  /-- Raised by `step` in state `faulted`. Safe: the spec's core takes no step there. -/
  | stopped (condition : FatalCondition)
  deriving DecidableEq, Repr

/-- What is wrong with an image (R125). -/
inductive ImageProblem where
  /-- No bytes at all. -/
  | empty
  /-- An odd number of bytes: a truncated read. -/
  | oddLength
  /-- A word would pass address 0xFFFF. -/
  | pastTop
  deriving DecidableEq, Repr

/-- What the model gives no next state to. -/
inductive Refusal where
  /-- Raised by `exec` for an instruction without a meaning; no arm raises it. Safe. -/
  | notModelled (mnemonic : String)
  /-- Raised by `State.launch` for an image R125 does not admit. Safe: such an image has no run. -/
  | imageNotAdmitted (why : ImageProblem)
  /-- Raised by `runEvents` for a host move after close(), which R46 forbids. Safe: the host never makes it. -/
  | inputAlreadyClosed
  deriving DecidableEq, Repr

/-- The state after the launch of an image that holds only an origin (R27, R122, R124): COND is Z,
memory is zero, run is Running, the console is empty. R0 to R7 are INIT_GPR, here zero (DESIGN
CHOICE, unsafe, log 2); the origin is 0x3000 (DESIGN CHOICE, unsafe, log 3); the parameters are the
defaults (log 4, log 5). -/
def State.reset : State :=
  { regs := #v[0#16, 0#16, 0#16, 0#16, 0#16, 0#16, 0#16, 0#16]
    pc := 0x3000#16
    cond := 0x0002#16
    mem := { cells := [] }
    run := .running
    inQ := []
    inEnd := false
    out := []
    params := Config.defaultParams }

end Sys2Proof.Machine
end

