-- ==== Sys2Proof/Machine/Ops.lean ====
section
/-! DEFINITION. The named operations over memory, registers, the console ports and the run state:
20_memory.md R28 to R47, 45_trap.md R93 and R95, 60_exceptions.md R107. -/

namespace Sys2Proof.Machine

/-! ## The memory array -/

/-- The canonical form: addresses strictly rising, inside the address space, no word equal to what an
unlisted address reads as. Equal contents are then equal lists. -/
abbrev Memory.wf (m : Memory) : Prop :=
  (m.cells.map Prod.fst).Pairwise (· < ·) ∧ ∀ c ∈ m.cells, c.1 < Config.memWords ∧ c.2 ≠ 0#16

/-- The word listed at a key; an unlisted address reads as zero (R122). -/
def lookupCell (key : Nat) : List (Nat × Word) → Word
  | [] => 0x0000#16
  | (k, v) :: rest => if k = key then v else lookupCell key rest

/-- Puts a cell before the first greater key. -/
def insertCell (key : Nat) (v : Word) : List (Nat × Word) → List (Nat × Word)
  | [] => [(key, v)]
  | (k, w) :: rest => if key < k then (key, v) :: (k, w) :: rest else (k, w) :: insertCell key v rest

/-- The cells at every other key. -/
def dropCell (key : Nat) : List (Nat × Word) → List (Nat × Word)
  | [] => []
  | (k, w) :: rest => if k = key then dropCell key rest else (k, w) :: dropCell key rest

/-- `M[a]`: total over the address space (R28). -/
def Memory.read (m : Memory) (a : Word) : Word := lookupCell a.toNat m.cells

/-- `M[a] <- v`; writing zero unlists the address, so the form stays canonical. -/
def Memory.write (m : Memory) (a v : Word) : Memory :=
  if v = 0#16 then { cells := dropCell a.toNat m.cells }
  else { cells := insertCell a.toNat v (dropCell a.toNat m.cells) }

/-! ## Registers -/

/-- `R[i]` (R13). -/
def State.readReg (s : State) (r : Reg) : Word := s.regs[r.toNat]'r.isLt

/-- `R[i] <- v` (R13): no register is hardwired. -/
def State.writeReg (s : State) (r : Reg) (v : Word) : State :=
  { s with regs := s.regs.set r.toNat v r.isLt }

/-- `pc <- target` (R10). -/
def State.jumpTo (s : State) (target : Word) : State := { s with pc := target }

/-- `zext_8(b)` (R9). -/
def zext8 (b : Byte) : Word := b.setWidth 16

/-! ## The console ports -/

/-- What `InByte()` answers (R44): a byte with the state it was taken from, the end of the input, or
a hold. -/
inductive InByte where
  | byte (b : Byte) (rest : State)
  | endOfInput
  | hold

/-- `InByte()` (R44): the head of `inQ`, which it removes; else the end mark; else a hold (R45). -/
def inByte (s : State) : InByte :=
  match s.inQ with
  | b :: rest => .byte b { s with inQ := rest }
  | [] => if s.inEnd then .endOfInput else .hold

/-- `OutByte` of each byte, in order (R47). -/
def outBytes (bs : List Byte) (s : State) : State := { s with out := s.out ++ bs.map .byte }

/-- `OutByte(b)` (R47). -/
def outByte (b : Byte) (s : State) : State := outBytes [b] s

/-- `Flush()` (R47). -/
def flush (s : State) : State := { s with out := s.out ++ [.flushMark] }

/-! ## Memory accesses -/

/-- `MemWrite(a, 1, v)`: an unconditional store with no side effect (R36). -/
def memWrite (a v : Word) (s : State) : State := { s with mem := s.mem.write a v }

/-- KBSR after a poll that received a nonzero byte (R31; the whole word is the spec's decision D7). -/
def kbsrReady : Word := 0x8000#16

/-- `poll()` (R31): takes one input byte; a nonzero byte goes to KBDR and makes KBSR ready, a zero
byte or the end of input clears KBSR. `none` is a hold. -/
def poll (s : State) : Option State :=
  match inByte s with
  | .byte b t =>
    if b ≠ 0x00#8 then
      some (memWrite Config.kbsrAddr kbsrReady (memWrite Config.kbdrAddr (zext8 b) t))
    else some (memWrite Config.kbsrAddr 0x0000#16 t)
  | .endOfInput => some (memWrite Config.kbsrAddr 0x0000#16 s)
  | .hold => none

/-- `MemRead(a, 1)` (R35): the word and the state after the poll that a read of KBSR performs.
`none` is a hold (R45). -/
def memRead (a : Word) (s : State) : Option (Word × State) :=
  if a = Config.kbsrAddr then (poll s).map fun t => (t.mem.read a, t)
  else some (s.mem.read a, s)

/-- The array read of `StringRead(a)` (R95); `none` where the rule raises StringReadOfDevice. -/
def stringRead (m : Memory) (a : Word) : Option Word :=
  if a = Config.kbsrAddr then none else some (m.read a)

/-! ## Fetch, hold, the end of a run -/

/-- The fetch (R68, R69): `I <- MemRead(PC, 1)`, then `PC <- PC + 1`. `none` is a hold. -/
def fetch (s : State) : Option (Word × State) :=
  (memRead s.pc s).map fun (w, t) => (w, t.jumpTo (t.pc + 1#16))

/-- The address of the executing instruction, `PC - 1` after the fetch (R77). -/
def instrAddr (s : State) : Word := s.pc - 1#16

/-- A hold inside a handler (R45): the step is not taken, so the state is the one before the fetch,
which had only moved PC on (a fetch that polls is never followed by an instruction that reads
input, R69). The same step is taken again (log 7). -/
def holdStep (s : State) : State := s.jumpTo (instrAddr s)

/-- `raise Fault(kind, info)` (R107): the one way a fatal condition is taken. Everything the handler
did before stays; the block saves nothing and goes to no handler (R113), and there is no return (R114). -/
def raiseFault (c : FatalCondition) (s : State) : State := { s with run := .faulted c }

/-- `halt()` (R10, R102). -/
def halt (s : State) : State := { s with run := .halted }

/-- The exit code the run status port reports (R49): none while the run goes on. -/
def exitCode (s : State) : Option Int :=
  match s.run with
  | .running => none
  | .inWait => none
  | .halted => some Config.haltExitCode
  | .faulted _ => some s.params.fatalExitCode

/-- The `pc` a fatal condition records: the address of the faulting instruction (R108). -/
def FatalCondition.pc : FatalCondition → Word
  | .unsupportedOpcode _ _ pc => pc
  | .unsupportedTrap _ _ pc => pc
  | .inputExhausted _ pc => pc
  | .stringReadOfDevice _ pc => pc

/-- The number of a fatal condition's kind (R106). -/
def FatalCondition.code : FatalCondition → Nat
  | .unsupportedOpcode _ _ _ => 1
  | .unsupportedTrap _ _ _ => 2
  | .inputExhausted _ _ => 3
  | .stringReadOfDevice _ _ => 4

end Sys2Proof.Machine
end

