-- ==== Sys2Proof/Machine/Flags.lean ====
section
/-! DEFINITION. The condition register: its three values, the update, Branch's test (10_state.md
R16 to R18, 42_control.md R81). -/

namespace Sys2Proof.Machine

/-- N (Negative), bit 2 (R16; the bit is the spec's decision D3, log 11). -/
def condN : Word := 0x0004#16

/-- Z (Zero), bit 1 (R16). -/
def condZ : Word := 0x0002#16

/-- P (Positive), bit 0 (R16). -/
def condP : Word := 0x0001#16

/-- The flag of a word (R17). -/
def condOf (v : Word) : Word :=
  if v = 0x0000#16 then condZ else if v.getLsbD 15 then condN else condP

/-- `setcc(R[r])`: COND from the value currently stored in the named register (R17). -/
def updateFlags (r : Reg) (s : State) : State := { s with cond := condOf (s.readReg r) }

/-- What a flag-setting instruction does at its end: write DR, then `setcc(R[DR])` (R18). -/
def writeDest (dr : Reg) (v : Word) (s : State) : State := updateFlags dr (s.writeReg dr v)

/-- Branch's 3-bit mask, aligned with COND's bits (R16, R81). -/
def branchMask (n z p : Bool) : Word :=
  0#13 ++ BitVec.ofBool n ++ BitVec.ofBool z ++ BitVec.ofBool p

/-- `(cond_field & COND) != 0` (R81). -/
def branchTaken (n z p : Bool) (cond : Word) : Bool := branchMask n z p &&& cond != 0#16

end Sys2Proof.Machine
end

