-- ==== Sys2Proof/Machine/Operands.lean ====
section
/-! DEFINITION. Operand assembly and the addressing modes (00_scope.md R9, 30_encoding.md R58,
43_load.md's opening). The state a meaning sees has the post-fetch PC (R11). -/

namespace Sys2Proof.Machine

/-- `sext_N(v)`: the field's sign bit fills the bits above it (R9). -/
def sext {n : Nat} (v : BitVec n) : Word := v.signExtend 16

/-- PC-relative: `PC + sext_N(offset)`, modulo 2^16 (R8, R58). -/
def pcRelative {n : Nat} (off : BitVec n) (s : State) : Word := s.pc + sext off

/-- Base + offset: `R[BaseR] + sext_6(offset6)`, modulo 2^16. -/
def baseOffset (base : Reg) (off : BitVec 6) (s : State) : Word := s.readReg base + sext off

end Sys2Proof.Machine
end

