-- ==== Sys2Proof/Machine/Control.lean ====
section
/-! DEFINITION. BR, JMP, JSR, JSRR (42_control.md R81 to R84), and the return address they share with
TRAP (R93). -/

namespace Sys2Proof.Machine

/-- `R[7] <- PC`, the post-fetch value: the return address. -/
def saveReturn (s : State) : State := s.writeReg 7#3 s.pc

/-- BR (R81): a target by the same 16-bit modular add as every address. -/
def execBr (n z p : Bool) (off : BitVec 9) (s : State) : Host.Outcome State Fault Refusal :=
  .next (if branchTaken n z p s.cond then s.jumpTo (pcRelative off s) else s)

/-- JMP (R82). -/
def execJmp (base : Reg) (_ignHi : BitVec 3) (_ignLo : BitVec 6) (s : State) :
    Host.Outcome State Fault Refusal :=
  .next (s.jumpTo (s.readReg base))

/-- JSR (R83): the target uses the post-fetch PC. -/
def execJsr (off : BitVec 11) (s : State) : Host.Outcome State Fault Refusal :=
  .next ((saveReturn s).jumpTo (pcRelative off (saveReturn s)))

/-- JSRR (R84): R7 is written before BaseR is read, so `JSRR R7` goes on at the next word. -/
def execJsrr (base : Reg) (_ignHi : BitVec 2) (_ignLo : BitVec 6) (s : State) :
    Host.Outcome State Fault Refusal :=
  .next ((saveReturn s).jumpTo ((saveReturn s).readReg base))

end Sys2Proof.Machine
end

