-- ==== Sys2Proof/Machine/Load.lean ====
section
/-! DEFINITION. LD, LDI, LDR, LEA (43_load.md R85 to R88). -/

namespace Sys2Proof.Machine

/-- `R[DR] <- MemRead(addr, 1)` and the flags, read in state `t`; on a hold the whole step, which
began in `s`, is not taken (R45). -/
def loadFrom (dr : Reg) (addr : Word) (t s : State) : Host.Outcome State Fault Refusal :=
  match memRead addr t with
  | some (v, u) => .next (writeDest dr v u)
  | none => .next (holdStep s)

/-- LD (R85). -/
def execLd (dr : Reg) (off : BitVec 9) (s : State) : Host.Outcome State Fault Refusal :=
  loadFrom dr (pcRelative off s) s s

/-- LDI (R86): the pointer, then the value; each is a full `MemRead`. -/
def execLdi (dr : Reg) (off : BitVec 9) (s : State) : Host.Outcome State Fault Refusal :=
  match memRead (pcRelative off s) s with
  | some (p, t) => loadFrom dr p t s
  | none => .next (holdStep s)

/-- LDR (R87): the address is formed before DR is written. -/
def execLdr (dr base : Reg) (off : BitVec 6) (s : State) : Host.Outcome State Fault Refusal :=
  loadFrom dr (baseOffset base off s) s s

/-- LEA (R88): no memory access; it sets the flags. -/
def execLea (dr : Reg) (off : BitVec 9) (s : State) : Host.Outcome State Fault Refusal :=
  .next (writeDest dr (pcRelative off s) s)

end Sys2Proof.Machine
end

