-- ==== Sys2Proof/Machine/Operate.lean ====
section
/-! DEFINITION. ADD, AND, NOT (41_operate.md R78 to R80). Sources are read before DR is written. -/

namespace Sys2Proof.Machine

/-- ADD, register form (R78): `DR <- R[SR1] + R[SR2]`. -/
def execAdd (dr sr1 sr2 : Reg) (_ign : BitVec 2) (s : State) : Host.Outcome State Fault Refusal :=
  .next (writeDest dr (s.readReg sr1 + s.readReg sr2) s)

/-- ADD, immediate form (R78): `DR <- R[SR1] + sext_5(imm5)`. -/
def execAddi (dr sr1 : Reg) (imm : BitVec 5) (s : State) : Host.Outcome State Fault Refusal :=
  .next (writeDest dr (s.readReg sr1 + sext imm) s)

/-- AND, register form (R79). -/
def execAnd (dr sr1 sr2 : Reg) (_ign : BitVec 2) (s : State) : Host.Outcome State Fault Refusal :=
  .next (writeDest dr (s.readReg sr1 &&& s.readReg sr2) s)

/-- AND, immediate form (R79). -/
def execAndi (dr sr1 : Reg) (imm : BitVec 5) (s : State) : Host.Outcome State Fault Refusal :=
  .next (writeDest dr (s.readReg sr1 &&& sext imm) s)

/-- NOT (R80): flags from the new DR, never from SR. -/
def execNot (dr sr : Reg) (_ign : BitVec 6) (s : State) : Host.Outcome State Fault Refusal :=
  .next (writeDest dr (~~~ s.readReg sr) s)

end Sys2Proof.Machine
end

