-- ==== Sys2Proof/Machine/Store.lean ====
section
/-! DEFINITION. ST, STI, STR (44_store.md R89 to R91): no store writes COND. -/

namespace Sys2Proof.Machine

/-- ST (R89). -/
def execSt (sr : Reg) (off : BitVec 9) (s : State) : Host.Outcome State Fault Refusal :=
  .next (memWrite (pcRelative off s) (s.readReg sr) s)

/-- STI (R90): the pointer is read by a full `MemRead`, the store never polls. -/
def execSti (sr : Reg) (off : BitVec 9) (s : State) : Host.Outcome State Fault Refusal :=
  match memRead (pcRelative off s) s with
  | some (addr, t) => .next (memWrite addr (t.readReg sr) t)
  | none => .next (holdStep s)

/-- STR (R91). -/
def execStr (sr base : Reg) (off : BitVec 6) (s : State) : Host.Outcome State Fault Refusal :=
  .next (memWrite (baseOffset base off s) (s.readReg sr) s)

end Sys2Proof.Machine
end

