-- ==== Sys2Proof/Machine/Trap.lean ====
section
/-! DEFINITION. TRAP and the six services (45_trap.md R92 to R103). The block runs a service itself,
inside the TRAP's step (R94). -/

namespace Sys2Proof.Machine

/-- What a supported TRAP does before its service (R92, R93). -/
def trapEntry (s : State) : State := if s.params.trapWritesR7 then saveReturn s else s

/-- `R[0] <- zext_8(b)`, with the flags when TRAP_INPUT_SETS_FLAGS is true (R96, R100). -/
def receiveByte (b : Byte) (s : State) : State :=
  if s.params.trapInputSetsFlags then writeDest 0#3 (zext8 b) s else s.writeReg 0#3 (zext8 b)

/-! ## String scans -/

/-- A scan of a string: the bytes it outputs, and whether it met the string's end (`true`) or the
address 0xFE00 (`false`). -/
structure StringScan where
  bytes : List Byte
  ended : Bool
  deriving DecidableEq, Repr

/-- The scan with bytes output before it. -/
def StringScan.after (bs : List Byte) (r : StringScan) : StringScan := { r with bytes := bs ++ r.bytes }

/-- The loop of PUTS (R98) from address `a`, for at most `fuel` words. With the 2^16 words the services
give it, it never runs out: any 2^16 words in a row hold 0xFE00, where R95 stops it. -/
def putsScan (m : Memory) : Nat → Word → StringScan
  | 0, _ => ⟨[], false⟩
  | fuel + 1, a =>
    match stringRead m a with
    | none => ⟨[], false⟩
    | some w => if w = 0x0000#16 then ⟨[], true⟩ else (putsScan m fuel (a + 1#16)).after [lowByte w]

/-- The loop of PUTSP (R101) from address `a`: low byte, then high byte; `zeroHighEnds` is
PUTSP_ZERO_HIGH_ENDS_STRING. -/
def putspScan (zeroHighEnds : Bool) (m : Memory) : Nat → Word → StringScan
  | 0, _ => ⟨[], false⟩
  | fuel + 1, a =>
    match stringRead m a with
    | none => ⟨[], false⟩
    | some w =>
      if w = 0x0000#16 then ⟨[], true⟩
      else if highByte w = 0x00#8 then
        if zeroHighEnds then ⟨[lowByte w], true⟩
        else (putspScan zeroHighEnds m fuel (a + 1#16)).after [lowByte w]
      else (putspScan zeroHighEnds m fuel (a + 1#16)).after [lowByte w, highByte w]

/-- The output of a scan, then `Flush()`; or the fault of R95, which leaves the bytes and no mark. -/
def printScan (r : StringScan) (s : State) : State :=
  if r.ended then flush (outBytes r.bytes s)
  else raiseFault (.stringReadOfDevice Config.kbsrAddr (instrAddr s)) (outBytes r.bytes s)

/-- PUTS after the TRAP's entry (R98). -/
def puts (s : State) : State :=
  printScan (putsScan s.mem Config.memWords (s.readReg 0#3)) s

/-- PUTSP after the TRAP's entry (R101). -/
def putsp (s : State) : State :=
  printScan (putspScan s.params.putspZeroHighEnds s.mem Config.memWords (s.readReg 0#3)) s

/-! ## The instructions -/

/-- GETC (R96). -/
def execTrapGetc (_ign : BitVec 4) (s : State) : Host.Outcome State Fault Refusal :=
  match inByte (trapEntry s) with
  | .byte b t => .next (receiveByte b t)
  | .endOfInput => .next (raiseFault (.inputExhausted 0x20#8 (instrAddr s)) (trapEntry s))
  | .hold => .next (holdStep s)

/-- OUT (R97): bits 7:0 of R0, no flush mark. -/
def execTrapOut (_ign : BitVec 4) (s : State) : Host.Outcome State Fault Refusal :=
  .next (outByte (lowByte ((trapEntry s).readReg 0#3)) (trapEntry s))

/-- PUTS (R98). -/
def execTrapPuts (_ign : BitVec 4) (s : State) : Host.Outcome State Fault Refusal :=
  .next (puts (trapEntry s))

/-- IN, first step (R99): the prompt, then `InWait`. -/
def execTrapIn (_ign : BitVec 4) (s : State) : Host.Outcome State Fault Refusal :=
  .next { outBytes s.params.inPrompt (trapEntry s) with run := .inWait }

/-- IN, second step (R100), taken in state `InWait` with no fetch (R72): echo, R0, back to `Running`. -/
def inSecondStep (s : State) : Host.Outcome State Fault Refusal :=
  match inByte s with
  | .byte b t => .next { receiveByte b (outByte b t) with run := .running }
  | .endOfInput => .next (raiseFault (.inputExhausted 0x23#8 (instrAddr s)) s)
  | .hold => .next s

/-- PUTSP (R101). -/
def execTrapPutsp (_ign : BitVec 4) (s : State) : Host.Outcome State Fault Refusal :=
  .next (putsp (trapEntry s))

/-- HALT (R102): no message, no register written but R7 by the TRAP's entry. -/
def execTrapHalt (_ign : BitVec 4) (s : State) : Host.Outcome State Fault Refusal :=
  .next (halt (flush (trapEntry s)))

/-- TRAP with any other vector (R103): the fault comes before any other effect, R7 included. -/
def execTrapOther (ign : BitVec 4) (vector : Byte) (s : State) : Host.Outcome State Fault Refusal :=
  .next (raiseFault (.unsupportedTrap vector (encode (.trapOther ign vector)) (instrAddr s)) s)

end Sys2Proof.Machine
end

