-- ==== Sys2Proof/Machine/Unsupported.lean ====
section
/-! DEFINITION. RTI and RES (46_unsupported.md R104, R105): the fault is taken, in every state. -/

namespace Sys2Proof.Machine

/-- `raise Fault(UnsupportedOpcode, {opcode, word: I, pc: PC - 1})`. -/
def raiseUnsupportedOpcode (opcode : BitVec 4) (word : Word) (s : State) : State :=
  raiseFault (.unsupportedOpcode opcode word (instrAddr s)) s

/-- RTI (R104). -/
def execRti (ign : BitVec 12) (s : State) : Host.Outcome State Fault Refusal :=
  .next (raiseUnsupportedOpcode 0x8#4 (encode (.rti ign)) s)

/-- RES (R105). -/
def execRes (ign : BitVec 12) (s : State) : Host.Outcome State Fault Refusal :=
  .next (raiseUnsupportedOpcode 0xD#4 (encode (.res ign)) s)

end Sys2Proof.Machine
end

