-- ==== Sys2Proof/Machine/Dispatch.lean ====
section
/-! DEFINITION. The dispatch: one arm per instruction (40_execution_loop.md R70). -/

namespace Sys2Proof.Machine

/-- The handler of an instruction, in the state after the fetch. -/
def exec (i : Instr) (s : State) : Host.Outcome State Fault Refusal :=
  match i with
  | .br n z p off => Sys2Proof.Machine.execBr n z p off s
  | .add dr sr1 sr2 ign => Sys2Proof.Machine.execAdd dr sr1 sr2 ign s
  | .addi dr sr1 imm => Sys2Proof.Machine.execAddi dr sr1 imm s
  | .ld dr off => Sys2Proof.Machine.execLd dr off s
  | .st sr off => Sys2Proof.Machine.execSt sr off s
  | .jsrr base ignHi ignLo => Sys2Proof.Machine.execJsrr base ignHi ignLo s
  | .jsr off => Sys2Proof.Machine.execJsr off s
  | .and dr sr1 sr2 ign => Sys2Proof.Machine.execAnd dr sr1 sr2 ign s
  | .andi dr sr1 imm => Sys2Proof.Machine.execAndi dr sr1 imm s
  | .ldr dr base off => Sys2Proof.Machine.execLdr dr base off s
  | .str sr base off => Sys2Proof.Machine.execStr sr base off s
  | .rti ign => Sys2Proof.Machine.execRti ign s
  | .not dr sr ign => Sys2Proof.Machine.execNot dr sr ign s
  | .ldi dr off => Sys2Proof.Machine.execLdi dr off s
  | .sti sr off => Sys2Proof.Machine.execSti sr off s
  | .jmp base ignHi ignLo => Sys2Proof.Machine.execJmp base ignHi ignLo s
  | .res ign => Sys2Proof.Machine.execRes ign s
  | .lea dr off => Sys2Proof.Machine.execLea dr off s
  | .trapGetc ign => Sys2Proof.Machine.execTrapGetc ign s
  | .trapOut ign => Sys2Proof.Machine.execTrapOut ign s
  | .trapPuts ign => Sys2Proof.Machine.execTrapPuts ign s
  | .trapIn ign => Sys2Proof.Machine.execTrapIn ign s
  | .trapPutsp ign => Sys2Proof.Machine.execTrapPutsp ign s
  | .trapHalt ign => Sys2Proof.Machine.execTrapHalt ign s
  | .trapOther ign vector => Sys2Proof.Machine.execTrapOther ign vector s

end Sys2Proof.Machine
end

