-- ==== Sys2Proof/Machine/Step.lean ====
section
/-! DEFINITION. One step of the core (40_execution_loop.md R68 to R73). -/

namespace Sys2Proof.Machine

/-- A step in state `Running` (R68): fetch, advance PC, decode, dispatch. A fetch that holds leaves
the state as it is (R69, log 7). -/
def stepRunning (s : State) : Host.Outcome State Fault Refusal :=
  match fetch s with
  | some (w, t) => exec (decodeWord w) t
  | none => .next s

/-- One step of the core: `InWait` finishes the IN trap (R72); from a final state the core takes no
step (R73, log 8). -/
def step (s : State) : Host.Outcome State Fault Refusal :=
  match s.run with
  | .running => stepRunning s
  | .inWait => inSecondStep s
  | .halted => .fault .halted
  | .faulted c => .fault (.stopped c)

/-- The state whose very next step runs the word `w`: the word stored at PC, the run state `Running`.
A fetch at 0xFE00 polls and replaces the word (R69), so there PC moves to 0x3000 first (log 3). -/
def State.withFetchWord (s : State) (nbits w : Nat) : State :=
  let pc := if s.pc = Config.kbsrAddr then 0x3000#16 else s.pc
  { s with pc := pc, mem := s.mem.write pc (tableWord nbits w), run := .running }

end Sys2Proof.Machine
end

