-- ==== Sys2Proof/Machine/Launch.lean ====
section
/-! DEFINITION. The image loader and the launch (70_reset_and_hazards.md R122 to R125). -/

namespace Sys2Proof.Machine

/-- The big-endian words of the image's bytes (R124); `none` where a byte is left over (R125). -/
def imageWords : List Byte → Option (List Word)
  | [] => some []
  | [_] => none
  | high :: low :: rest => (imageWords rest).map (wordOfBytes high low :: ·)

/-- Writes the words to consecutive addresses (R124). -/
def loadWords (m : Memory) (a : Word) : List Word → Memory
  | [] => m
  | w :: rest => loadWords (m.write a w) (a + 1#16) rest

/-- `launch(image, INIT_GPR)` (R122), for the parameters of R5 and the input the host has already
delivered. An image R125 does not admit is refused, and no run starts from a partial load. -/
def State.launch (params : Config.Params) (initGpr : Vector Word 8) (inQ : List Byte) (inEnd : Bool)
    (image : List Byte) : Host.Outcome State Fault Refusal :=
  match imageWords image with
  | none => .refused (.imageNotAdmitted .oddLength)
  | some [] => .refused (.imageNotAdmitted .empty)
  | some (origin :: words) =>
    if origin.toNat + words.length ≤ Config.memWords then
      .next { regs := initGpr, pc := origin, cond := 0x0002#16,
              mem := loadWords { cells := [] } origin words,
              run := .running, inQ := inQ, inEnd := inEnd, out := [], params := params }
    else .refused (.imageNotAdmitted .pastTop)

end Sys2Proof.Machine
end

