-- ==== Sys2Proof/Machine/Console.lean ====
section
/-! DEFINITION. The host's moves and runs that mix them with core steps (20_memory.md R46,
40_execution_loop.md R76). -/

namespace Sys2Proof.Machine

/-- A move of the host (R46). -/
inductive ConsoleMove where
  | deliver (b : Byte)
  | close
  deriving DecidableEq, Repr

/-- The effect of a host move; `none` where its precondition, inEnd false, fails (R46). -/
def ConsoleMove.apply (m : ConsoleMove) (s : State) : Option State :=
  if s.inEnd then none
  else
    match m with
    | .deliver b => some { s with inQ := s.inQ ++ [b] }
    | .close => some { s with inEnd := true }

/-- What happens next in a run: a core step or a host move, in any order (R46). -/
inductive RunEvent where
  | coreStep
  | hostMove (m : ConsoleMove)
  deriving DecidableEq, Repr

/-- A run: the events in order, up to the first stop. -/
def runEvents : List RunEvent → State → Host.Outcome State Fault Refusal
  | [], s => .next s
  | .coreStep :: rest, s =>
    match step s with
    | .next t => runEvents rest t
    | .fault r => .fault r
    | .refused r => .refused r
  | .hostMove m :: rest, s =>
    match m.apply s with
    | some t => runEvents rest t
    | none => .refused .inputAlreadyClosed

end Sys2Proof.Machine
end

