-- ==== Sys2Proof/Safety.lean ====
section
/-! DEFINITION. The words the claims use: the invariant, what a frame keeps, when a step holds. -/

namespace Sys2Proof.Machine

/-- COND holds exactly one flag (R19). -/
abbrev OneFlag (cond : Word) : Prop := cond = 0x0001#16 ∨ cond = 0x0002#16 ∨ cond = 0x0004#16

/-- What holds at launch and is kept by every step: COND is one-hot (R19), memory is in its
canonical form, FATAL_EXIT_CODE is a legal value (R5). -/
abbrev State.Inv (s : State) : Prop := OneFlag s.cond ∧ s.mem.wf ∧ s.params.wf

/-- Every general register outside the list reads as before. -/
abbrev SameRegsBut (rs : List Reg) (s t : State) : Prop := ∀ r : Reg, r ∉ rs → t.readReg r = s.readReg r

/-- Every word of memory outside the list of addresses reads as before. -/
abbrev SameMemBut (as : List Word) (s t : State) : Prop := ∀ a : Word, a ∉ as → t.mem.read a = s.mem.read a

/-- The console is as before: input queue, end mark, output. -/
abbrev SameConsole (s t : State) : Prop := t.inQ = s.inQ ∧ t.inEnd = s.inEnd ∧ t.out = s.out

/-- The run state and the parameters are as before. -/
abbrev SameRun (s t : State) : Prop := t.run = s.run ∧ t.params = s.params

/-- No input byte can be taken and the end is not marked: `InByte()` holds (R44, R45). -/
abbrev State.noInput (s : State) : Prop := s.inQ = [] ∧ s.inEnd = false

/-- The instruction, in the state after the fetch, reaches `InByte()` (R31, R86, R90, R96). -/
def takesInput (i : Instr) (s : State) : Bool :=
  match i with
  | .br _ _ _ _ => false
  | .add _ _ _ _ => false
  | .addi _ _ _ => false
  | .ld _ off => pcRelative off s = Config.kbsrAddr
  | .st _ _ => false
  | .jsrr _ _ _ => false
  | .jsr _ => false
  | .and _ _ _ _ => false
  | .andi _ _ _ => false
  | .ldr _ base off => baseOffset base off s = Config.kbsrAddr
  | .str _ _ _ => false
  | .rti _ => false
  | .not _ _ _ => false
  | .ldi _ off =>
    pcRelative off s = Config.kbsrAddr || s.mem.read (pcRelative off s) = Config.kbsrAddr
  | .sti _ off => pcRelative off s = Config.kbsrAddr
  | .jmp _ _ _ => false
  | .res _ => false
  | .lea _ _ => false
  | .trapGetc _ => true
  | .trapOut _ => false
  | .trapPuts _ => false
  | .trapIn _ => false
  | .trapPutsp _ => false
  | .trapHalt _ => false
  | .trapOther _ _ => false

/-- The core holds (R45): a fetch at 0xFE00, an instruction that reaches `InByte()`, or the second
step of IN, with no input. A holding step leaves the state as it is; this tells it from a loop. -/
def State.holds (s : State) : Prop :=
  s.noInput ∧
    ((s.run = .running ∧
        (s.pc = Config.kbsrAddr ∨
          takesInput (decodeWord (s.mem.read s.pc)) (s.jumpTo (s.pc + 1#16)) = true)) ∨
      s.run = .inWait)

/-! ## Results and effects -/

/-- COND holds the flag of the word `v` (R17): Z for zero, N for a set bit 15, else P. The values are
R16's (the spec's decision D3, log 11). -/
def FlagsOf (v cond : Word) : Prop :=
  (v = 0x0000#16 → cond = 0x0002#16) ∧
    (v ≠ 0x0000#16 → v.getLsbD 15 = true → cond = 0x0004#16) ∧
    (v ≠ 0x0000#16 → v.getLsbD 15 = false → cond = 0x0001#16)

/-- The outcome is a next state in which DR holds `v`, COND holds `v`'s flag, and all else (the other
registers, PC, memory, console, run state, parameters) is as in `u`. -/
def ResultIn (o : Host.Outcome State Fault Refusal) (dr : Reg) (v : Word) (u : State) : Prop :=
  ∃ t, o = .next t ∧ t.readReg dr = v ∧ FlagsOf v t.cond ∧ SameRegsBut [dr] u t ∧ t.pc = u.pc ∧
    SameMemBut [] u t ∧ SameConsole u t ∧ SameRun u t

/-- The outcome is a next state in which `a` holds `v`, and all else (every other word of memory, the
registers, PC, COND, console, run state, parameters) is as in `u`. -/
def StoredIn (o : Host.Outcome State Fault Refusal) (a v : Word) (u : State) : Prop :=
  ∃ t, o = .next t ∧ t.mem.read a = v ∧ SameMemBut [a] u t ∧ SameRegsBut [] u t ∧ t.pc = u.pc ∧
    t.cond = u.cond ∧ SameConsole u t ∧ SameRun u t

/-- `u` is `s` after a poll that took input or met its end (R31): a nonzero byte goes to KBDR and
KBSR becomes 0x8000; a zero byte or the end of input makes KBSR 0x0000 and leaves KBDR. -/
def PolledTo (s u : State) : Prop :=
  SameRegsBut [] s u ∧ u.pc = s.pc ∧ u.cond = s.cond ∧ SameRun s u ∧ u.inEnd = s.inEnd ∧ u.out = s.out ∧
    ((∃ b, b ≠ 0x00#8 ∧ s.inQ = b :: u.inQ ∧ u.mem.read Config.kbsrAddr = 0x8000#16 ∧
        u.mem.read Config.kbdrAddr = zext8 b ∧ SameMemBut [Config.kbsrAddr, Config.kbdrAddr] s u) ∨
      ((s.inQ = 0x00#8 :: u.inQ ∨ (s.inQ = [] ∧ s.inEnd = true ∧ u.inQ = [])) ∧
        u.mem.read Config.kbsrAddr = 0x0000#16 ∧ SameMemBut [Config.kbsrAddr] s u))

/-- All but PC and the listed registers is as before. -/
def SameBesidePc (rs : List Reg) (s t : State) : Prop :=
  SameRegsBut rs s t ∧ SameMemBut [] s t ∧ t.cond = s.cond ∧ SameConsole s t ∧ SameRun s t

/-- The state is as before but for the run state, which is Faulted (R107). -/
def FaultedFrom (c : FatalCondition) (s t : State) : Prop :=
  t.run = .faulted c ∧ SameRegsBut [] s t ∧ t.pc = s.pc ∧ t.cond = s.cond ∧ SameMemBut [] s t ∧
    SameConsole s t ∧ t.params = s.params

/-- All but the general registers and the console output is as before: what a console service may
change beside R0, R7 and the input. -/
def SameCore (s t : State) : Prop :=
  t.pc = s.pc ∧ SameMemBut [] s t ∧ t.inEnd = s.inEnd ∧ t.params = s.params

/-- What TRAP_WRITES_R7 says R7 holds after a supported TRAP that leaves R7 alone otherwise (R93). -/
def trapR7 (s : State) : Word := if s.params.trapWritesR7 = true then s.pc else s.readReg 7#3

/-! ## What an instruction may write -/

/-- The general registers the spec says the instruction writes (R13, R18). -/
def writtenRegs (i : Instr) (s : State) : List Reg :=
  match i with
  | .br _ _ _ _ => []
  | .add dr _ _ _ => [dr]
  | .addi dr _ _ => [dr]
  | .ld dr _ => [dr]
  | .st _ _ => []
  | .jsrr _ _ _ => [7#3]
  | .jsr _ => [7#3]
  | .and dr _ _ _ => [dr]
  | .andi dr _ _ => [dr]
  | .ldr dr _ _ => [dr]
  | .str _ _ _ => []
  | .rti _ => []
  | .not dr _ _ => [dr]
  | .ldi dr _ => [dr]
  | .sti _ _ => []
  | .jmp _ _ _ => []
  | .res _ => []
  | .lea dr _ => [dr]
  | .trapGetc _ => if s.params.trapWritesR7 = true then [0#3, 7#3] else [0#3]
  | .trapOut _ => if s.params.trapWritesR7 = true then [7#3] else []
  | .trapPuts _ => if s.params.trapWritesR7 = true then [7#3] else []
  | .trapIn _ => if s.params.trapWritesR7 = true then [7#3] else []
  | .trapPutsp _ => if s.params.trapWritesR7 = true then [7#3] else []
  | .trapHalt _ => if s.params.trapWritesR7 = true then [7#3] else []
  | .trapOther _ _ => []

/-- The instruction writes COND (R18). -/
def writesCond (i : Instr) (s : State) : Bool :=
  match i with
  | .br _ _ _ _ => false
  | .add _ _ _ _ => true
  | .addi _ _ _ => true
  | .ld _ _ => true
  | .st _ _ => false
  | .jsrr _ _ _ => false
  | .jsr _ => false
  | .and _ _ _ _ => true
  | .andi _ _ _ => true
  | .ldr _ _ _ => true
  | .str _ _ _ => false
  | .rti _ => false
  | .not _ _ _ => true
  | .ldi _ _ => true
  | .sti _ _ => false
  | .jmp _ _ _ => false
  | .res _ => false
  | .lea _ _ => true
  | .trapGetc _ => s.params.trapInputSetsFlags
  | .trapOut _ => false
  | .trapPuts _ => false
  | .trapIn _ => false
  | .trapPutsp _ => false
  | .trapHalt _ => false
  | .trapOther _ _ => false

/-- The addresses a read of `a` may write: a poll rewrites KBSR and KBDR (R31). -/
def polledAddrs (a : Word) : List Word :=
  if a = Config.kbsrAddr then [Config.kbsrAddr, Config.kbdrAddr] else []

/-- The addresses the instruction may write, in the state after the fetch (R39, R40): the address
its store computes, and the keyboard registers where one of its reads polls. -/
def writtenAddrs (i : Instr) (s : State) : List Word :=
  match i with
  | .br _ _ _ _ => []
  | .add _ _ _ _ => []
  | .addi _ _ _ => []
  | .ld _ off => polledAddrs (pcRelative off s)
  | .st _ off => [pcRelative off s]
  | .jsrr _ _ _ => []
  | .jsr _ => []
  | .and _ _ _ _ => []
  | .andi _ _ _ => []
  | .ldr _ base off => polledAddrs (baseOffset base off s)
  | .str _ base off => [baseOffset base off s]
  | .rti _ => []
  | .not _ _ _ => []
  | .ldi _ off => polledAddrs (pcRelative off s) ++ polledAddrs (s.mem.read (pcRelative off s))
  | .sti _ off =>
    match memRead (pcRelative off s) s with
    | some (addr, _) => addr :: polledAddrs (pcRelative off s)
    | none => []
  | .jmp _ _ _ => []
  | .res _ => []
  | .lea _ _ => []
  | .trapGetc _ => []
  | .trapOut _ => []
  | .trapPuts _ => []
  | .trapIn _ => []
  | .trapPutsp _ => []
  | .trapHalt _ => []
  | .trapOther _ _ => []

/-! ## Strings in memory -/

/-- The word `k` places after `a`, the address wrapping (R98). -/
def wordAt (m : Memory) (a : Word) (k : Nat) : Word := m.read (a + BitVec.ofNat 16 k)

/-- The scan from `a` can pass `n` words: none of them lies at 0xFE00 and none is zero. -/
def NonzeroRun (m : Memory) (a : Word) (n : Nat) : Prop :=
  ∀ k < n, a + BitVec.ofNat 16 k ≠ Config.kbsrAddr ∧ wordAt m a k ≠ 0x0000#16

/-- The bytes PUTS outputs for the first `n` words (R98). -/
def putsOutput (m : Memory) (a : Word) (n : Nat) : List OutEvent :=
  (List.range n).map fun k => .byte (lowByte (wordAt m a k))

/-- The bytes PUTSP outputs for one word it passes: the low byte, then a nonzero high byte (R101). -/
def packedOutput (w : Word) : List OutEvent :=
  if highByte w = 0x00#8 then [.byte (lowByte w)] else [.byte (lowByte w), .byte (highByte w)]

/-- The bytes PUTSP outputs for the first `n` words (R101). -/
def putspOutput (m : Memory) (a : Word) (n : Nat) : List OutEvent :=
  (List.range n).flatMap fun k => packedOutput (wordAt m a k)

end Sys2Proof.Machine
end

