-- ==== Sys2Proof/Certificates/Slice0/Obligations.lean ====
section
/-! DEFINITION. The statements for the provers. `exec` sees the state after the fetch, whose PC is the
address of the next word (R11); 0xFE00 is KBSR, 0xFE02 is KBDR. -/

open Sys2Proof Sys2Proof.Machine

/-! ## Encoding and decoding -/

/-- Decoding the encoding of a well-formed instruction gives it back, every field at every value.
The opcode numbers and field places are the spec's decisions D1, D2, D4 (log 9). -/
def Obligations.DecodeOfEncodeIsIdentity : Prop :=
  ∀ i : Instr, i.wf = true → decodeWord (encode i) = i

/-- Every word decodes to a well-formed instruction whose encoding is that word: decoding is total and
loses no bit (30_encoding.md R65, which the spec marks as derived; log 9). -/
def Obligations.EncodeOfDecodeIsIdentity : Prop :=
  ∀ w : Word, (decodeWord w).wf = true ∧ encode (decodeWord w) = w

/-- The first row of opcode_table.json whose fixed bits a word has is the row of its instruction. The
spec's decisions D1, D2 (log 9). -/
def Obligations.DecodedInstructionIsTheTableRow : Prop :=
  ∀ w : Word, (opcodeTable.find? (·.matchesWord w)).map (·.mnemonic) = some (decodeWord w).mnemonic

/-- Words written out bit by bit from R57 and R66 decode to the instruction they stand for. The spec's
decisions D1, D2 (log 9). -/
def Obligations.SampleWordsDecode : Prop :=
  decodeWord 0b0001_000_001_1_11111#16 = .addi 0 1 0b11111#5 ∧
  decodeWord 0b0101_000_001_0_00_010#16 = .and 0 1 2 0 ∧
  decodeWord 0b0000_1_0_0_000000101#16 = .br true false false 5 ∧
  decodeWord 0b0100_1_00000010000#16 = .jsr 16 ∧
  decodeWord 0b0110_010_011_111111#16 = .ldr 2 3 0b111111#6 ∧
  decodeWord 0b1011_000_000000001#16 = .sti 0 1 ∧
  decodeWord 0b1111_0000_00100101#16 = .trapHalt 0 ∧
  decodeWord 0b1111_0000_00100110#16 = .trapOther 0 0x26 ∧
  decodeWord 0b1101_000100100011#16 = .res 0x123

/-- Two words that differ only in bits R61 ignores (the spec's decision D4, log 9) do the same: OPR
bits 4:3, NOTF 5:0, JMPF 11:9 and 5:0, JSRRF 10:9 and 5:0, and TRAPF 11:8 for the six services. -/
def Obligations.IgnoredBitsChangeNothing : Prop :=
  ∀ (w w' : Word) (mask : Word), w &&& mask = w' &&& mask →
    ((mask = 0xFFE7#16 ∧ (opcodeOf w = 1#4 ∨ opcodeOf w = 5#4) ∧ w.getLsbD 5 = false) ∨
      (mask = 0xFFC0#16 ∧ opcodeOf w = 9#4) ∨
      (mask = 0xF1C0#16 ∧ opcodeOf w = 12#4) ∨
      (mask = 0xF9C0#16 ∧ opcodeOf w = 4#4 ∧ w.getLsbD 11 = false) ∨
      (mask = 0xF0FF#16 ∧ opcodeOf w = 15#4 ∧ isServiceVector (lowByte w) = true)) →
    ∀ s, exec (decodeWord w) s = exec (decodeWord w') s

/-- `sext_N` for every width from 1 to 16, and `zext_8`, as R9 writes them. -/
def Obligations.SignExtensionFillsFromTheSignBit : Prop :=
  (∀ (n : Nat) (v : BitVec n), 1 ≤ n → n ≤ 16 →
    sext v = if v.getLsbD (n - 1) = true then v.setWidth 16 ||| (0xFFFF#16 <<< n) else v.setWidth 16) ∧
  (∀ v : Word, sext v = v) ∧
  ∀ b : Byte, lowByte (zext8 b) = b ∧ highByte (zext8 b) = 0x00#8

/-! ## Memory and the keyboard -/

/-- `MemWrite` (R36): the word is written, whatever the address, and nothing else happens. -/
def Obligations.MemWriteStoresOneWord : Prop :=
  ∀ (a v : Word) (s : State),
    (memWrite a v s).mem.read a = v ∧ SameMemBut [a] s (memWrite a v s) ∧
    SameRegsBut [] s (memWrite a v s) ∧ (memWrite a v s).pc = s.pc ∧ (memWrite a v s).cond = s.cond ∧
    SameConsole s (memWrite a v s) ∧ SameRun s (memWrite a v s)

/-- Two memories in canonical form that read the same everywhere are equal data (the model's
representation, log 6). -/
def Obligations.CanonicalMemoriesWithEqualReadsAreEqual : Prop :=
  ∀ m m' : Memory, m.wf → m'.wf → (∀ a, m.read a = m'.read a) → m = m'

/-- A read of any address but KBSR gives the stored word and changes nothing, KBDR included
(20_memory.md R32, R35, R39, where the spec marks its decision and derivation). -/
def Obligations.ReadBesideKbsrHasNoEffect : Prop :=
  ∀ (a : Word) (s : State), a ≠ 0xFE00#16 → memRead a s = some (s.mem.read a, s)

/-- A read of KBSR with input at hand, or its end, polls and then gives the updated word; with neither
it holds (20_memory.md R31, R44, R45; the spec's decisions D7, D8, D9, log 12). -/
def Obligations.ReadOfKbsrPolls : Prop :=
  ∀ s : State,
    (¬ s.noInput → ∃ u, PolledTo s u ∧ memRead 0xFE00#16 s = some (u.mem.read 0xFE00#16, u)) ∧
    (s.noInput → memRead 0xFE00#16 s = none)

/-! ## Flags -/

/-- `setcc` (R17): COND from the register's current value, and nothing else changes. COND's three values
are the spec's decision D3 (log 11), here and wherever a statement gives a flag. -/
def Obligations.SetccFollowsTheRegister : Prop :=
  ∀ (r : Reg) (s : State),
    FlagsOf (s.readReg r) (updateFlags r s).cond ∧ SameRegsBut [] s (updateFlags r s) ∧
    (updateFlags r s).pc = s.pc ∧ SameMemBut [] s (updateFlags r s) ∧
    SameConsole s (updateFlags r s) ∧ SameRun s (updateFlags r s)

/-! ## Operate instructions -/

/-- ADD, both forms (R78): the sum modulo 2^16 of the old operands, its flag, and nothing else. COND: D3,
log 11. -/
def Obligations.AddWritesSumAndFlags : Prop :=
  ∀ (s : State) (dr sr1 : Reg),
    (∀ sr2 ign, ResultIn (exec (.add dr sr1 sr2 ign) s) dr (s.readReg sr1 + s.readReg sr2) s) ∧
    ∀ imm, ResultIn (exec (.addi dr sr1 imm) s) dr (s.readReg sr1 + sext imm) s

/-- AND, both forms (R79). COND: D3, log 11. -/
def Obligations.AndWritesConjunctionAndFlags : Prop :=
  ∀ (s : State) (dr sr1 : Reg),
    (∀ sr2 ign, ResultIn (exec (.and dr sr1 sr2 ign) s) dr (s.readReg sr1 &&& s.readReg sr2) s) ∧
    ∀ imm, ResultIn (exec (.andi dr sr1 imm) s) dr (s.readReg sr1 &&& sext imm) s

/-- NOT (R80): the complement, with the flag of the new DR. COND: D3, log 11. -/
def Obligations.NotWritesComplementAndFlags : Prop :=
  ∀ (s : State) (dr sr : Reg) (ign : BitVec 6),
    ResultIn (exec (.not dr sr ign) s) dr (~~~ s.readReg sr) s

/-! ## Control transfer -/

/-- BR (R81): taken exactly when a mask bit meets its flag; with all three mask bits and one flag set
it is always taken, with none never. The flags' bits are the spec's decision D3 (log 11). -/
def Obligations.BranchFollowsItsMask : Prop :=
  ∀ (s : State) (n z p : Bool) (off : BitVec 9),
    ∃ t, exec (.br n z p off) s = .next t ∧ SameBesidePc [] s t ∧
      (((n && s.cond.getLsbD 2) || (z && s.cond.getLsbD 1) || (p && s.cond.getLsbD 0)) = true →
        t.pc = s.pc + sext off) ∧
      (((n && s.cond.getLsbD 2) || (z && s.cond.getLsbD 1) || (p && s.cond.getLsbD 0)) = false →
        t.pc = s.pc) ∧
      (n = true → z = true → p = true → OneFlag s.cond → t.pc = s.pc + sext off) ∧
      (n = false → z = false → p = false → t = s)

/-- JMP (R82): PC from BaseR, nothing else. -/
def Obligations.JumpGoesToTheBaseRegister : Prop :=
  ∀ (s : State) (base : Reg) (ignHi : BitVec 3) (ignLo : BitVec 6),
    ∃ t, exec (.jmp base ignHi ignLo) s = .next t ∧ t.pc = s.readReg base ∧ SameBesidePc [] s t

/-- JSR (R83): R7 holds the post-fetch PC, the target is relative to it. COND is kept although R7 is
written (R18): the spec's resolution of conflict C1, decision D33 (log 11). -/
def Obligations.JsrSavesReturnAddressAndJumps : Prop :=
  ∀ (s : State) (off : BitVec 11),
    ∃ t, exec (.jsr off) s = .next t ∧ t.readReg 7#3 = s.pc ∧ t.pc = s.pc + sext off ∧ SameBesidePc [7#3] s t

/-- JSRR (R84): R7 is written before BaseR is read, so for BaseR = 7 PC does not move (the spec's decision
D32, conflict C6, log 13). COND is kept although R7 is written (conflict C1, decision D33, log 11). -/
def Obligations.JsrrWritesR7BeforeItReadsBase : Prop :=
  ∀ (s : State) (base : Reg) (ignHi : BitVec 2) (ignLo : BitVec 6),
    ∃ t, exec (.jsrr base ignHi ignLo) s = .next t ∧ t.readReg 7#3 = s.pc ∧
      t.pc = (if base = 7#3 then s.pc else s.readReg base) ∧ SameBesidePc [7#3] s t

/-! ## Loads -/

/-- LD (R85): from storage it loads the word; from KBSR, with input at hand or ended, it polls and loads
the updated word (R31, with the spec's decisions D7, D8, log 12). COND: D3, log 11. -/
def Obligations.LdLoadsTheWord : Prop :=
  ∀ (s : State) (dr : Reg) (off : BitVec 9),
    (s.pc + sext off ≠ 0xFE00#16 → ResultIn (exec (.ld dr off) s) dr (s.mem.read (s.pc + sext off)) s) ∧
    (s.pc + sext off = 0xFE00#16 → ¬ s.noInput →
      ∃ u, PolledTo s u ∧ ResultIn (exec (.ld dr off) s) dr (u.mem.read 0xFE00#16) u)

/-- LDR (R87): as LD, with the address R[BaseR] + sext_6 formed before DR is written. The poll: D7, D8,
log 12. COND: D3, log 11. -/
def Obligations.LdrLoadsTheWord : Prop :=
  ∀ (s : State) (dr base : Reg) (off : BitVec 6),
    (s.readReg base + sext off ≠ 0xFE00#16 →
      ResultIn (exec (.ldr dr base off) s) dr (s.mem.read (s.readReg base + sext off)) s) ∧
    (s.readReg base + sext off = 0xFE00#16 → ¬ s.noInput →
      ∃ u, PolledTo s u ∧ ResultIn (exec (.ldr dr base off) s) dr (u.mem.read 0xFE00#16) u)

/-- LDI (R86): the pointer, then the value; either read may be the one that polls (the spec's decision
D39, log 12). COND: D3, log 11. -/
def Obligations.LdiLoadsThroughThePointer : Prop :=
  ∀ (s : State) (dr : Reg) (off : BitVec 9),
    (s.pc + sext off ≠ 0xFE00#16 → s.mem.read (s.pc + sext off) ≠ 0xFE00#16 →
      ResultIn (exec (.ldi dr off) s) dr (s.mem.read (s.mem.read (s.pc + sext off))) s) ∧
    (s.pc + sext off ≠ 0xFE00#16 → s.mem.read (s.pc + sext off) = 0xFE00#16 → ¬ s.noInput →
      ∃ u, PolledTo s u ∧ ResultIn (exec (.ldi dr off) s) dr (u.mem.read 0xFE00#16) u) ∧
    (s.pc + sext off = 0xFE00#16 → ¬ s.noInput →
      ∃ u, PolledTo s u ∧ ResultIn (exec (.ldi dr off) s) dr (u.mem.read (u.mem.read 0xFE00#16)) u)

/-- LEA (R88): the address itself, with its flag; no memory access, so 0xFE00 does not poll. COND: D3, log
11. -/
def Obligations.LeaLoadsTheAddressAndSetsFlags : Prop :=
  ∀ (s : State) (dr : Reg) (off : BitVec 9), ResultIn (exec (.lea dr off) s) dr (s.pc + sext off) s

/-! ## Stores -/

/-- ST (R89): one word at PC + sext_9, at KBSR and KBDR too, and nothing else. -/
def Obligations.StStoresAtThePcRelativeAddress : Prop :=
  ∀ (s : State) (sr : Reg) (off : BitVec 9),
    StoredIn (exec (.st sr off) s) (s.pc + sext off) (s.readReg sr) s

/-- STR (R91): one word at R[BaseR] + sext_6, and nothing else. -/
def Obligations.StrStoresAtTheBaseOffsetAddress : Prop :=
  ∀ (s : State) (sr base : Reg) (off : BitVec 6),
    StoredIn (exec (.str sr base off) s) (s.readReg base + sext off) (s.readReg sr) s

/-- STI (R90): the store goes to the pointer's word; a pointer at KBSR polls first (the spec's decision
D39, log 12), a store to KBSR never does. -/
def Obligations.StiStoresThroughThePointer : Prop :=
  ∀ (s : State) (sr : Reg) (off : BitVec 9),
    (s.pc + sext off ≠ 0xFE00#16 →
      StoredIn (exec (.sti sr off) s) (s.mem.read (s.pc + sext off)) (s.readReg sr) s) ∧
    (s.pc + sext off = 0xFE00#16 → ¬ s.noInput →
      ∃ u, PolledTo s u ∧ StoredIn (exec (.sti sr off) s) (u.mem.read 0xFE00#16) (s.readReg sr) u)

/-- A store into the next word is what the next fetch runs (20_memory.md R53, decision D28). Log 6; the
word's decoding D1, D2, log 9. -/
def Obligations.StoredWordIsFetchedNext : Prop :=
  ∀ (s : State) (sr : Reg), s.run = .running → s.pc ≠ 0xFE00#16 → s.pc + 1#16 ≠ 0xFE00#16 →
    decodeWord (s.mem.read s.pc) = .st sr 0 →
    ∃ t, step s = .next t ∧ t.pc = s.pc + 1#16 ∧
      step t = exec (decodeWord (s.readReg sr)) (t.jumpTo (s.pc + 2#16))

/-! ## Traps -/

/-- GETC with a byte at hand (R96): R0 is the byte zero-extended, no echo, R7 and COND by the parameters
(R93, R18; a zero byte is the spec's decision D35, log 13). The parameters: log 1. COND: D3, log 11. -/
def Obligations.GetcTakesOneByte : Prop :=
  ∀ (s : State) (ign : BitVec 4) (b : Byte) (rest : List Byte), s.inQ = b :: rest →
    ∃ t, exec (.trapGetc ign) s = .next t ∧ t.readReg 0#3 = zext8 b ∧ t.readReg 7#3 = trapR7 s ∧
      SameRegsBut [0#3, 7#3] s t ∧ SameCore s t ∧ t.inQ = rest ∧ t.out = s.out ∧ t.run = s.run ∧
      (if s.params.trapInputSetsFlags = true then FlagsOf (zext8 b) t.cond else t.cond = s.cond)

/-- GETC at the end of the input faults InputExhausted with vector 0x20 and its own address (R96, R106;
the spec's decision D10, log 13); R7 is as the TRAP's entry left it. The parameter: log 1; what a fault
keeps: D24, log 13. -/
def Obligations.GetcAtEndOfInputFaults : Prop :=
  ∀ (s : State) (ign : BitVec 4), s.inQ = [] → s.inEnd = true →
    ∃ t, exec (.trapGetc ign) s = .next t ∧ t.run = .faulted (.inputExhausted 0x20#8 (s.pc - 1#16)) ∧
      t.readReg 7#3 = trapR7 s ∧ SameRegsBut [7#3] s t ∧ SameCore s t ∧ t.inQ = [] ∧ t.out = s.out ∧
      t.cond = s.cond

/-- OUT (R97): the low byte of R0 goes out, with no flush mark. R7 is as TRAP_WRITES_R7 says (R93, D11,
log 1); the flush marks are D19 (log 14). -/
def Obligations.OutAppendsLowByteOfR0 : Prop :=
  ∀ (s : State) (ign : BitVec 4),
    ∃ t, exec (.trapOut ign) s = .next t ∧ t.out = s.out ++ [.byte (lowByte (s.readReg 0#3))] ∧
      t.readReg 7#3 = trapR7 s ∧ SameRegsBut [7#3] s t ∧ SameCore s t ∧ t.inQ = s.inQ ∧ t.run = s.run ∧
      t.cond = s.cond

/-- PUTS (R98, R95): the low bytes of the words up to a zero word, then a flush mark; or, where the scan
reaches 0xFE00 first, those bytes and the fault (the spec's decisions D14, D15, D17, log 13). What a fault
keeps: D24, log 13; R7: D11, log 1; the mark: D19, log 14. -/
def Obligations.PutsPrintsTheString : Prop :=
  ∀ (s : State) (ign : BitVec 4) (n : Nat), NonzeroRun s.mem (s.readReg 0#3) n →
    (s.readReg 0#3 + BitVec.ofNat 16 n ≠ 0xFE00#16 → wordAt s.mem (s.readReg 0#3) n = 0x0000#16 →
      ∃ t, exec (.trapPuts ign) s = .next t ∧
        t.out = s.out ++ putsOutput s.mem (s.readReg 0#3) n ++ [.flushMark] ∧ t.run = s.run ∧
        t.readReg 7#3 = trapR7 s ∧ SameRegsBut [7#3] s t ∧ SameCore s t ∧ t.inQ = s.inQ ∧ t.cond = s.cond) ∧
    (s.readReg 0#3 + BitVec.ofNat 16 n = 0xFE00#16 →
      ∃ t, exec (.trapPuts ign) s = .next t ∧ t.out = s.out ++ putsOutput s.mem (s.readReg 0#3) n ∧
        t.run = .faulted (.stringReadOfDevice 0xFE00#16 (s.pc - 1#16)) ∧
        t.readReg 7#3 = trapR7 s ∧ SameRegsBut [7#3] s t ∧ SameCore s t ∧ t.inQ = s.inQ ∧ t.cond = s.cond)

/-- PUTS and PUTSP end in every state (R98's and R101's corner cases). The 2^16 words of fuel their scans
have are enough: more change nothing. Within fewer than 2^16 words each meets its end, which leaves the
run state and adds a flush mark, or 0xFE00, which is the fault. The stop at 0xFE00 and the wrap are the
spec's decisions D14, D15 (log 13); PUTSP's end at a zero high byte is a parameter (D16, log 1);
the bytes are D17, what a fault keeps D24 (log 13), the mark D19 (log 14). -/
def Obligations.EveryStringScanEnds : Prop :=
  (∀ (z : Bool) (m : Memory) (a : Word) (fuel : Nat), Config.memWords ≤ fuel →
    putsScan m fuel a = putsScan m Config.memWords a ∧
    putspScan z m fuel a = putspScan z m Config.memWords a) ∧
  ∀ (s : State) (ign : BitVec 4),
    (∃ n < 65536, ∃ t, exec (.trapPuts ign) s = .next t ∧ NonzeroRun s.mem (s.readReg 0#3) n ∧
      ((s.readReg 0#3 + BitVec.ofNat 16 n ≠ 0xFE00#16 ∧
          wordAt s.mem (s.readReg 0#3) n = 0x0000#16 ∧ t.run = s.run ∧
          t.out = s.out ++ putsOutput s.mem (s.readReg 0#3) n ++ [.flushMark]) ∨
        (s.readReg 0#3 + BitVec.ofNat 16 n = 0xFE00#16 ∧
          t.run = .faulted (.stringReadOfDevice 0xFE00#16 (s.pc - 1#16)) ∧
          t.out = s.out ++ putsOutput s.mem (s.readReg 0#3) n))) ∧
    ∃ n < 65536, ∃ t, exec (.trapPutsp ign) s = .next t ∧ NonzeroRun s.mem (s.readReg 0#3) n ∧
      (s.params.putspZeroHighEnds = true → ∀ k < n, highByte (wordAt s.mem (s.readReg 0#3) k) ≠ 0x00#8) ∧
      ((s.readReg 0#3 + BitVec.ofNat 16 n ≠ 0xFE00#16 ∧
          wordAt s.mem (s.readReg 0#3) n = 0x0000#16 ∧ t.run = s.run ∧
          t.out = s.out ++ putspOutput s.mem (s.readReg 0#3) n ++ [.flushMark]) ∨
        (s.readReg 0#3 + BitVec.ofNat 16 n ≠ 0xFE00#16 ∧ s.params.putspZeroHighEnds = true ∧
          wordAt s.mem (s.readReg 0#3) n ≠ 0x0000#16 ∧ highByte (wordAt s.mem (s.readReg 0#3) n) = 0x00#8 ∧
          t.run = s.run ∧
          t.out = s.out ++ putspOutput s.mem (s.readReg 0#3) (n + 1) ++ [.flushMark]) ∨
        (s.readReg 0#3 + BitVec.ofNat 16 n = 0xFE00#16 ∧
          t.run = .faulted (.stringReadOfDevice 0xFE00#16 (s.pc - 1#16)) ∧
          t.out = s.out ++ putspOutput s.mem (s.readReg 0#3) n))

/-- PUTSP (R101, R95): low byte, then nonzero high byte, of each word; it ends at a zero word, or after
the low byte of a word with a zero high byte when PUTSP_ZERO_HIGH_ENDS_STRING is true, or with the fault
at 0xFE00 (the spec's decisions D14 to D17, log 13). R7 and the string's end are parameters (D11, D16, log
1); the mark: D19, log 14. -/
def Obligations.PutspPrintsThePackedString : Prop :=
  ∀ (s : State) (ign : BitVec 4) (n : Nat), NonzeroRun s.mem (s.readReg 0#3) n →
    (s.params.putspZeroHighEnds = true → ∀ k < n, highByte (wordAt s.mem (s.readReg 0#3) k) ≠ 0x00#8) →
    ∃ t, exec (.trapPutsp ign) s = .next t ∧
      t.readReg 7#3 = trapR7 s ∧ SameRegsBut [7#3] s t ∧ SameCore s t ∧ t.inQ = s.inQ ∧ t.cond = s.cond ∧
      (s.readReg 0#3 + BitVec.ofNat 16 n = 0xFE00#16 →
        t.out = s.out ++ putspOutput s.mem (s.readReg 0#3) n ∧
        t.run = .faulted (.stringReadOfDevice 0xFE00#16 (s.pc - 1#16))) ∧
      (s.readReg 0#3 + BitVec.ofNat 16 n ≠ 0xFE00#16 → wordAt s.mem (s.readReg 0#3) n = 0x0000#16 →
        t.out = s.out ++ putspOutput s.mem (s.readReg 0#3) n ++ [.flushMark] ∧ t.run = s.run) ∧
      (s.readReg 0#3 + BitVec.ofNat 16 n ≠ 0xFE00#16 → wordAt s.mem (s.readReg 0#3) n ≠ 0x0000#16 →
        s.params.putspZeroHighEnds = true → highByte (wordAt s.mem (s.readReg 0#3) n) = 0x00#8 →
        t.out = s.out ++ putspOutput s.mem (s.readReg 0#3) (n + 1) ++ [.flushMark] ∧ t.run = s.run)

/-- IN, first step (R99): the prompt goes out, then the core waits (the spec's decisions D13, D34). The
prompt and R7 are parameters (log 1); the two steps: log 13. -/
def Obligations.InPrintsItsPromptThenWaits : Prop :=
  ∀ (s : State) (ign : BitVec 4),
    ∃ t, exec (.trapIn ign) s = .next t ∧ t.out = s.out ++ s.params.inPrompt.map .byte ∧
      t.run = .inWait ∧ t.readReg 7#3 = trapR7 s ∧ SameRegsBut [7#3] s t ∧ SameCore s t ∧ t.inQ = s.inQ ∧
      t.cond = s.cond

/-- IN, second step (R100): no fetch; with a byte it echoes and stores it and runs on, at the end of the
input it faults (the spec's decisions D10, D35, D36, log 13). COND: D3, log 11. -/
def Obligations.InWaitEchoesAndStoresOneByte : Prop :=
  ∀ s : State, s.run = .inWait →
    (∀ b rest, s.inQ = b :: rest →
      ∃ t, step s = .next t ∧ t.out = s.out ++ [.byte b] ∧ t.readReg 0#3 = zext8 b ∧ t.run = .running ∧
        SameRegsBut [0#3] s t ∧ SameCore s t ∧ t.inQ = rest ∧
        (if s.params.trapInputSetsFlags = true then FlagsOf (zext8 b) t.cond else t.cond = s.cond)) ∧
    (s.inQ = [] → s.inEnd = true →
      ∃ t, step s = .next t ∧ FaultedFrom (.inputExhausted 0x23#8 (s.pc - 1#16)) s t)

/-- HALT (R102): a flush mark, then Halted; no register but R7 by the parameter, PC after the TRAP (the
spec's decisions D18, D38, log 13). R7: D11, log 1; the mark: D19, log 14. -/
def Obligations.HaltFlushesAndStops : Prop :=
  ∀ (s : State) (ign : BitVec 4),
    ∃ t, exec (.trapHalt ign) s = .next t ∧ t.out = s.out ++ [.flushMark] ∧ t.run = .halted ∧
      t.readReg 7#3 = trapR7 s ∧ SameRegsBut [7#3] s t ∧ SameCore s t ∧ t.inQ = s.inQ ∧ t.cond = s.cond

/-- TRAP with any other vector (R103): the fault, recorded with vector, word and address, before any other
effect, R7 included. The opcode's number is decision D1 (log 9); what a fault keeps is D24 (log 13). -/
def Obligations.OtherTrapVectorsFault : Prop :=
  ∀ (s : State) (w : Word), opcodeOf w = 0xF#4 → (lowByte w < 0x20#8 ∨ 0x25#8 < lowByte w) →
    (∃ ign, decodeWord w = .trapOther ign (lowByte w)) ∧
    ∃ t, exec (decodeWord w) s = .next t ∧ FaultedFrom (.unsupportedTrap (lowByte w) w (s.pc - 1#16)) s t

/-! ## Unsupported opcodes -/

/-- RTI, any bits 11:0 (R104): UnsupportedOpcode with opcode, word and address, nothing else changed. The
opcode's number is decision D1 (log 9); what a fault keeps is D24 (log 13). -/
def Obligations.RtiFaults : Prop :=
  ∀ (s : State) (w : Word), opcodeOf w = 0x8#4 →
    (∃ ign, decodeWord w = .rti ign) ∧
    ∃ t, exec (decodeWord w) s = .next t ∧ FaultedFrom (.unsupportedOpcode 0x8#4 w (s.pc - 1#16)) s t

/-- RES, any bits 11:0 (R105). As RTI (D1, log 9; D24, log 13). -/
def Obligations.ResFaults : Prop :=
  ∀ (s : State) (w : Word), opcodeOf w = 0xD#4 →
    (∃ ign, decodeWord w = .res ign) ∧
    ∃ t, exec (decodeWord w) s = .next t ∧ FaultedFrom (.unsupportedOpcode 0xD#4 w (s.pc - 1#16)) s t

/-! ## The step -/

/-- A step runs the decoded instruction (R68): with the word at PC decoding to `i`, step is exec of `i`
in the state whose PC has moved on by one word. (A fetch at KBSR is `FetchFromKbsrPolls`.) -/
def Obligations.StepRunsTheDecodedInstruction : Prop :=
  ∀ (s : State) (i : Instr), s.run = .running → s.pc ≠ 0xFE00#16 → i.wf = true →
    decodeWord (s.mem.read s.pc) = i → step s = exec i (s.jumpTo (s.pc + 1#16))

/-- A fetch at 0xFE00 polls (40_execution_loop.md R69, derived there; conflict C8): a nonzero byte makes
it fetch 0x8000, which faults; a zero byte or the end of input makes it fetch a no-op. The spec's
decisions D6, D7 (log 12) and D1 (log 9). -/
def Obligations.FetchFromKbsrPolls : Prop :=
  ∀ s : State, s.run = .running → s.pc = 0xFE00#16 → ¬ s.noInput →
    ∃ u t, PolledTo s u ∧ step s = .next t ∧ t.pc = 0xFE01#16 ∧ SameRegsBut [] u t ∧ SameMemBut [] u t ∧
      t.cond = u.cond ∧ SameConsole u t ∧ t.params = u.params ∧
      t.run = if u.mem.read 0xFE00#16 = 0x8000#16
        then .faulted (.unsupportedOpcode 0x8#4 0x8000#16 0xFE00#16) else .running

/-- A word placed by `withFetchWord` is what the very next step runs (the host's loading aid, log 3). -/
def Obligations.PlacedWordRunsNext : Prop :=
  ∀ (s : State) (w : Word),
    ∃ u, step (s.withFetchWord 16 w.toNat) = exec (decodeWord w) u ∧
      u.pc = (s.withFetchWord 16 w.toNat).pc + 1#16 ∧ u.mem = (s.withFetchWord 16 w.toNat).mem ∧
      u.regs = s.regs ∧ u.cond = s.cond ∧ u.run = .running ∧ SameConsole s u ∧ u.params = s.params

/-- The core always answers a next state while it runs or waits: no instruction, operand or address
stops the model (20_memory.md R28, R41, 30_encoding.md R65; faults are states, log 8). -/
def Obligations.RunningCoreAlwaysHasANextState : Prop :=
  (∀ (i : Instr) (s : State), ∃ t, exec i s = .next t) ∧
  ∀ s : State, s.run = .running ∨ s.run = .inWait → ∃ t, step s = .next t

/-- From Halted and Faulted the core takes no step (R73): the model's step stops (log 8). -/
def Obligations.FinalStatesTakeNoStep : Prop :=
  ∀ s : State, (s.run = .halted → step s = .fault .halted) ∧
    ∀ c, s.run = .faulted c → step s = .fault (.stopped c)

/-- The reported exit codes (20_memory.md R49, decision D21): 1 for Halted, FATAL_EXIT_CODE, which is
neither 0 nor 1, for Faulted, none while the core runs. The code is a parameter (log 1, log 4). -/
def Obligations.ExitCodesTellHaltFromFault : Prop :=
  ∀ s : State, s.params.wf →
    (exitCode s = some 1 ↔ s.run = .halted) ∧
    (exitCode s = some s.params.fatalExitCode ↔ ∃ c, s.run = .faulted c) ∧
    (exitCode s = none ↔ s.run = .running ∨ s.run = .inWait) ∧ exitCode s ≠ some 0

/-- A fault of a running step records that instruction's address, and PC has moved on by one word
(60_exceptions.md R107, R108, 40_execution_loop.md R77). R77 is derived in the spec; D24, log 13. -/
def Obligations.FaultsRecordTheInstructionAddress : Prop :=
  ∀ (s t : State) (c : FatalCondition), s.run = .running → step s = .next t → t.run = .faulted c →
    c.pc = s.pc ∧ t.pc = s.pc + 1#16

/-- Only HALT enters Halted, only IN enters InWait, from a word fetched from storage (10_state.md R22).
InWait is the spec's decision D34 (log 13). -/
def Obligations.OnlyHaltHaltsAndOnlyInWaits : Prop :=
  ∀ s t : State, s.run = .running → s.pc ≠ 0xFE00#16 → step s = .next t →
    (t.run = .halted ↔ ∃ ign, decodeWord (s.mem.read s.pc) = .trapHalt ign) ∧
    (t.run = .inWait ↔ ∃ ign, decodeWord (s.mem.read s.pc) = .trapIn ign)

/-! ## Holds and the host -/

/-- A holding step leaves the whole state as it is (20_memory.md R45; as a step that stays, log 7). -/
def Obligations.HoldingStepChangesNothing : Prop :=
  ∀ s : State, s.holds → step s = .next s

/-- An instruction that reaches `InByte()` with no input leaves the state before its fetch (R45, log 7). -/
def Obligations.InstructionWithoutInputIsNotTaken : Prop :=
  ∀ (i : Instr) (s : State), takesInput i s = true → s.noInput → exec i s = .next (s.jumpTo (s.pc - 1#16))

/-- A host move touches only the input, adds at the queue's end, and ends a hold (20_memory.md R46,
decision D9). Log 10. -/
def Obligations.HostMovesTouchOnlyTheInput : Prop :=
  ∀ (s t : State) (m : ConsoleMove), m.apply s = some t →
    s.inEnd = false ∧ ¬ t.holds ∧ t.regs = s.regs ∧ t.pc = s.pc ∧ t.cond = s.cond ∧ t.mem = s.mem ∧
    t.out = s.out ∧ SameRun s t ∧
    (∀ b, m = .deliver b → t.inQ = s.inQ ++ [b] ∧ t.inEnd = false) ∧
    (m = .close → t.inQ = s.inQ ∧ t.inEnd = true)

/-- When the host moves matters only at a hold (40_execution_loop.md R76, derived there): a step that does
not hold and a host move give the same state in either order. Logs 7 and 10. -/
def Obligations.HostMovesCommuteWithSteps : Prop :=
  ∀ (s t s' : State) (m : ConsoleMove), ¬ s.holds → step s = .next t → m.apply s = some s' →
    ∃ t', step s' = .next t' ∧ m.apply t = some t'

/-! ## Whole-machine rules and invariants -/

/-- No instruction but the flag-setting ones writes COND (10_state.md R18, decisions D12, D33). Logs 1 and
11. -/
def Obligations.OnlyFlagSettersWriteCond : Prop :=
  ∀ (i : Instr) (s t : State), exec i s = .next t → writesCond i s = false → t.cond = s.cond

/-- An instruction writes no general register but those its rule names (10_state.md R13). That a TRAP
writes R7 is a parameter (D11, log 1). -/
def Obligations.RegistersOutsideTheWrittenOnesAreKept : Prop :=
  ∀ (i : Instr) (s t : State), exec i s = .next t → SameRegsBut (writtenRegs i s) s t

/-- An instruction writes no word of memory but those it stores to and, where it polls, the keyboard
registers (20_memory.md R39, R40). R40 is derived in the spec; the poll: log 12. -/
def Obligations.MemoryOutsideTheWrittenWordsIsKept : Prop :=
  ∀ (i : Instr) (s t : State), exec i s = .next t → SameMemBut (writtenAddrs i s) s t

/-- A step takes at most one input byte, from the head, and never touches the end mark; it only appends to
the output; it never changes the parameters (10_state.md R23, R24; the parameters, log 1). Decisions D9,
D19 (logs 10, 14). -/
def Obligations.StepsTakeInputInOrderAndOnlyAppendOutput : Prop :=
  ∀ s t : State, step s = .next t →
    (t.inQ = s.inQ ∨ ∃ b, s.inQ = b :: t.inQ) ∧ t.inEnd = s.inEnd ∧ s.out <+: t.out ∧ t.params = s.params

/-- The invariant holds at reset: COND is one-hot, memory canonical, FATAL_EXIT_CODE legal. Logs 4, 6, 11.
-/
def Obligations.ResetMeetsTheInvariant : Prop := State.reset.Inv

/-- Every step keeps the invariant (10_state.md R19, derived there; log 4, log 6). Log 11. -/
def Obligations.StepKeepsTheInvariant : Prop :=
  ∀ s t : State, s.Inv → step s = .next t → t.Inv

/-- Host moves keep the invariant, so every run of steps and moves does (R19, R46). R19 is derived in the
spec; log 10. -/
def Obligations.RunsKeepTheInvariant : Prop :=
  ∀ (events : List RunEvent) (s t : State), s.Inv → runEvents events s = .next t → t.Inv

/-! ## Launch -/

/-- The launch of an admitted image (R122, R124), for every INIT_GPR and every input already delivered:
memory is zero but for the image's words at the origin onward. INIT_GPR is decision D5 (log 2), COND's
value D3 (log 11). -/
def Obligations.LaunchLoadsTheImage : Prop :=
  ∀ (params : Config.Params) (initGpr : Vector Word 8) (inQ : List Byte) (inEnd : Bool) (origin : Word)
    (words : List Word), origin.toNat + words.length ≤ 65536 →
    ∃ s, State.launch params initGpr inQ inEnd ((origin :: words).flatMap bytesOfWord) = .next s ∧
      s.regs = initGpr ∧ s.pc = origin ∧ s.cond = 0x0002#16 ∧ s.run = .running ∧ s.out = [] ∧
      s.inQ = inQ ∧ s.inEnd = inEnd ∧ s.params = params ∧ (params.wf → s.Inv) ∧
      ∀ a : Word, s.mem.read a =
        if origin.toNat ≤ a.toNat then words.getD (a.toNat - origin.toNat) 0x0000#16 else 0x0000#16

/-- An image of no bytes, of an odd number of bytes, or with words past 0xFFFF starts no run
(70_reset_and_hazards.md R125, decision D20, log 15). -/
def Obligations.LaunchRefusesOtherImages : Prop :=
  ∀ (params : Config.Params) (initGpr : Vector Word 8) (inQ : List Byte) (inEnd : Bool),
    (∀ image : List Byte, image.length % 2 = 1 →
      State.launch params initGpr inQ inEnd image = .refused (.imageNotAdmitted .oddLength)) ∧
    State.launch params initGpr inQ inEnd [] = .refused (.imageNotAdmitted .empty) ∧
    ∀ (origin : Word) (words : List Word), 65536 < origin.toNat + words.length →
      State.launch params initGpr inQ inEnd ((origin :: words).flatMap bytesOfWord) =
        .refused (.imageNotAdmitted .pastTop)
end

