-- ==== Sys2Proof/Laws/Bits.lean ====
section
/-! SUPPORT. Fields of words as arithmetic: with these, a goal about fields is linear over Nat. -/

namespace Sys2Proof

theorem toNat_append_eq {n m : Nat} (x : BitVec n) (y : BitVec m) :
    (x ++ y).toNat = x.toNat * 2 ^ m + y.toNat := by
  rw [BitVec.toNat_append, ← Nat.shiftLeft_add_eq_or_of_lt y.isLt, Nat.shiftLeft_eq]

theorem toNat_extract_eq {n : Nat} (x : BitVec n) (start len : Nat) :
    (x.extractLsb' start len).toNat = x.toNat / 2 ^ start % 2 ^ len := by
  rw [BitVec.extractLsb'_toNat, Nat.shiftRight_eq_div_pow]

theorem getLsbD_eq_div {n : Nat} (x : BitVec n) (i : Nat) :
    x.getLsbD i = decide (x.toNat / 2 ^ i % 2 = 1) := by
  simp [BitVec.getLsbD, Nat.testBit_eq_decide_div_mod_eq]

theorem toNat_ofBool_getLsbD {n : Nat} (x : BitVec n) (i : Nat) :
    (BitVec.ofBool (x.getLsbD i)).toNat = x.toNat / 2 ^ i % 2 := by
  rw [getLsbD_eq_div]
  rcases Nat.mod_two_eq_zero_or_one (x.toNat / 2 ^ i) with h | h <;> simp [h]

theorem toNat_opcodeOf (w : Word) : (opcodeOf w).toNat = w.toNat / 4096 := by
  have := w.isLt
  simp only [opcodeOf, toNat_extract_eq]
  omega

/-- The two bytes of a word make it up again (R37). -/
@[simp] theorem wordOfBytes_bytes (w : Word) : wordOfBytes (highByte w) (lowByte w) = w := by
  apply BitVec.eq_of_toNat_eq
  have := w.isLt
  simp only [wordOfBytes, highByte, lowByte, toNat_append_eq, toNat_extract_eq]
  omega

@[simp] theorem highByte_wordOfBytes (h l : Byte) : highByte (wordOfBytes h l) = h := by
  apply BitVec.eq_of_toNat_eq
  have := l.isLt
  have := h.isLt
  simp only [wordOfBytes, highByte, toNat_append_eq, toNat_extract_eq]
  omega

@[simp] theorem lowByte_wordOfBytes (h l : Byte) : lowByte (wordOfBytes h l) = l := by
  apply BitVec.eq_of_toNat_eq
  have := l.isLt
  simp only [wordOfBytes, lowByte, toNat_append_eq, toNat_extract_eq]
  omega

/-- A word placed at a table row's 16 bits is itself. -/
@[simp] theorem tableWord_16 (w : Nat) : tableWord 16 w = BitVec.ofNat 16 w := by
  apply BitVec.eq_of_toNat_eq
  simp [tableWord]

end Sys2Proof
end

