-- ==== Sys2Proof/Laws/Memory.lean ====
section
/-! SUPPORT. The laws of the memory array: read after write, the canonical form, extensionality. -/

namespace Sys2Proof.Machine

/-! ## The cell lists -/

theorem lookup_insertCell (key key' : Nat) (v : Word) (l : List (Nat × Word))
    (h : ∀ c ∈ l, c.1 ≠ key) :
    lookupCell key' (insertCell key v l) = if key' = key then v else lookupCell key' l := by
  induction l with
  | nil => simp [insertCell, lookupCell, eq_comm]
  | cons c rest ih =>
    obtain ⟨k, w⟩ := c
    have hk : k ≠ key := h (k, w) (by simp)
    have ih' := ih fun c hc => h c (List.mem_cons_of_mem _ hc)
    simp only [insertCell]
    split
    · simp [lookupCell, eq_comm]
    · simp only [lookupCell, ih']
      by_cases hkk : k = key'
      · subst hkk
        simp [hk]
      · simp [hkk]

theorem lookup_dropCell (key key' : Nat) (l : List (Nat × Word)) :
    lookupCell key' (dropCell key l) = if key' = key then 0#16 else lookupCell key' l := by
  induction l with
  | nil => simp [dropCell, lookupCell]
  | cons c rest ih =>
    obtain ⟨k, w⟩ := c
    simp only [dropCell]
    split
    · rename_i hk
      subst hk
      simp only [ih, lookupCell]
      by_cases hkk : key' = k
      · simp [hkk]
      · simp [hkk, Ne.symm hkk]
    · rename_i hk
      simp only [lookupCell, ih]
      by_cases hkk : k = key'
      · subst hkk
        simp [hk]
      · simp [hkk]

theorem mem_dropCell {key : Nat} {l : List (Nat × Word)} {c : Nat × Word} :
    c ∈ dropCell key l ↔ c ∈ l ∧ c.1 ≠ key := by
  induction l with
  | nil => simp [dropCell]
  | cons d rest ih =>
    obtain ⟨k, w⟩ := d
    simp only [dropCell]
    split
    · rename_i hk
      subst hk
      rw [ih, List.mem_cons]
      constructor
      · exact fun ⟨h, hn⟩ => ⟨.inr h, hn⟩
      · rintro ⟨rfl | h, hn⟩
        · exact absurd rfl hn
        · exact ⟨h, hn⟩
    · rename_i hk
      rw [List.mem_cons, ih, List.mem_cons]
      constructor
      · rintro (rfl | ⟨h, hn⟩)
        · exact ⟨.inl rfl, hk⟩
        · exact ⟨.inr h, hn⟩
      · rintro ⟨rfl | h, hn⟩
        · exact .inl rfl
        · exact .inr ⟨h, hn⟩

theorem mem_insertCell {key : Nat} {v : Word} {l : List (Nat × Word)} {c : Nat × Word} :
    c ∈ insertCell key v l ↔ c = (key, v) ∨ c ∈ l := by
  induction l with
  | nil => simp [insertCell]
  | cons d rest ih =>
    obtain ⟨k, w⟩ := d
    simp only [insertCell]
    split
    · simp
    · simp only [List.mem_cons, ih]
      tauto

/-- Addresses strictly rising. -/
abbrev Rising (l : List (Nat × Word)) : Prop := (l.map Prod.fst).Pairwise (· < ·)

theorem rising_cons {k : Nat} {w : Word} {l : List (Nat × Word)} :
    Rising ((k, w) :: l) ↔ (∀ c ∈ l, k < c.1) ∧ Rising l := by
  simp [Rising]

theorem rising_dropCell {key : Nat} {l : List (Nat × Word)} (h : Rising l) : Rising (dropCell key l) := by
  induction l with
  | nil => exact h
  | cons d rest ih =>
    obtain ⟨k, w⟩ := d
    obtain ⟨hk, hr⟩ := rising_cons.mp h
    simp only [dropCell]
    split
    · exact ih hr
    · exact rising_cons.mpr ⟨fun c hc => hk c (mem_dropCell.mp hc).1, ih hr⟩

theorem rising_insertCell {key : Nat} {v : Word} {l : List (Nat × Word)} (h : Rising l)
    (hn : ∀ c ∈ l, c.1 ≠ key) : Rising (insertCell key v l) := by
  induction l with
  | nil => simp [insertCell, Rising]
  | cons d rest ih =>
    obtain ⟨k, w⟩ := d
    obtain ⟨hk, hr⟩ := rising_cons.mp h
    simp only [insertCell]
    split
    · rename_i hlt
      refine rising_cons.mpr ⟨fun c hc => ?_, h⟩
      rcases List.mem_cons.mp hc with rfl | hc
      · exact hlt
      · exact lt_trans hlt (hk c hc)
    · rename_i hlt
      have hne : k ≠ key := hn (k, w) (by simp)
      refine rising_cons.mpr ⟨fun c hc => ?_, ih hr fun c hc => hn c (List.mem_cons_of_mem _ hc)⟩
      rcases mem_insertCell.mp hc with rfl | hc
      · show k < key
        omega
      · exact hk c hc

theorem lookup_of_mem {l : List (Nat × Word)} (h : Rising l) {c : Nat × Word} (hc : c ∈ l) :
    lookupCell c.1 l = c.2 := by
  induction l with
  | nil => cases hc
  | cons d rest ih =>
    obtain ⟨k, w⟩ := d
    obtain ⟨hk, hr⟩ := rising_cons.mp h
    rcases List.mem_cons.mp hc with rfl | hc
    · simp [lookupCell]
    · have : k ≠ c.1 := (hk c hc).ne
      simp [lookupCell, this, ih hr hc]

theorem lookup_eq_zero {key : Nat} {l : List (Nat × Word)} (h : ∀ c ∈ l, c.1 ≠ key) :
    lookupCell key l = 0#16 := by
  induction l with
  | nil => rfl
  | cons d rest ih =>
    obtain ⟨k, w⟩ := d
    have hk : k ≠ key := h (k, w) (by simp)
    simp [lookupCell, hk, ih fun c hc => h c (List.mem_cons_of_mem _ hc)]

/-- A listed cell is a cell of every list with the same reads. -/
theorem mem_of_lookup {l l' : List (Nat × Word)} (hl : Rising l) (hz : ∀ c ∈ l, c.2 ≠ 0#16)
    (he : ∀ c ∈ l, lookupCell c.1 l = lookupCell c.1 l') {c : Nat × Word} (hc : c ∈ l) (hl' : Rising l') :
    c ∈ l' := by
  by_contra hn
  have h1 : lookupCell c.1 l' = c.2 := by rw [← he c hc, lookup_of_mem hl hc]
  by_cases hex : ∃ d ∈ l', d.1 = c.1
  · obtain ⟨d, hd, hdk⟩ := hex
    have h2 := lookup_of_mem hl' hd
    rw [hdk, h1] at h2
    exact hn (by rwa [Prod.ext (hdk.symm) h2])
  · push Not at hex
    exact hz c hc (by rw [← h1, lookup_eq_zero hex])

/-! ## Memory -/

/-- A read after a write, for every memory. -/
@[simp] theorem Memory.read_write (m : Memory) (a v b : Word) :
    (m.write a v).read b = if b = a then v else m.read b := by
  have hk : (b.toNat = a.toNat) ↔ b = a := ⟨BitVec.eq_of_toNat_eq, congrArg _⟩
  unfold Memory.write
  split
  · rename_i hv
    simp [Memory.read, lookup_dropCell, hk, hv]
  · simp only [Memory.read]
    rw [lookup_insertCell _ _ _ _ fun c hc => (mem_dropCell.mp hc).2, lookup_dropCell]
    simp only [hk]
    split <;> rfl

/-- Every write keeps the canonical form. -/
theorem Memory.wf_write {m : Memory} (h : m.wf) (a v : Word) : (m.write a v).wf := by
  obtain ⟨hr, hc⟩ := h
  unfold Memory.write
  split
  · exact ⟨rising_dropCell hr, fun c hm => hc c (mem_dropCell.mp hm).1⟩
  · rename_i hv
    refine ⟨rising_insertCell (rising_dropCell hr) fun c hm => (mem_dropCell.mp hm).2, fun c hm => ?_⟩
    rcases mem_insertCell.mp hm with rfl | hm
    · exact ⟨a.isLt, hv⟩
    · exact hc c (mem_dropCell.mp hm).1

/-- The memory with nothing listed is in canonical form. -/
theorem Memory.wf_empty : Memory.wf { cells := [] } := by simp [Memory.wf]

/-- The memory with nothing listed reads as zero everywhere (R122). -/
@[simp] theorem Memory.read_empty (a : Word) : Memory.read { cells := [] } a = 0#16 := rfl

end Sys2Proof.Machine
end

