-- ==== Sys2Proof/Laws/State.lean ====
section
/-! SUPPORT. One lemma per field per update of the state, each true by rfl, and the reads of a
register after each update. -/

namespace Sys2Proof.Machine

/-- A register read after a register write. -/
@[simp] theorem readReg_writeReg (s : State) (r q : Reg) (v : Word) :
    (s.writeReg r v).readReg q = if q = r then v else s.readReg q := by
  by_cases h : q = r
  · subst h
    simp [State.readReg, State.writeReg]
  · have hn : r.toNat ≠ q.toNat := fun e => h (BitVec.eq_of_toNat_eq e.symm)
    simp [State.readReg, State.writeReg, h, hn]

/-! ## State.writeReg -/

@[simp] theorem writeReg_pc (s : State) (r : Reg) (v : Word) : (s.writeReg r v).pc = s.pc := rfl
@[simp] theorem writeReg_cond (s : State) (r : Reg) (v : Word) : (s.writeReg r v).cond = s.cond := rfl
@[simp] theorem writeReg_mem (s : State) (r : Reg) (v : Word) : (s.writeReg r v).mem = s.mem := rfl
@[simp] theorem writeReg_run (s : State) (r : Reg) (v : Word) : (s.writeReg r v).run = s.run := rfl
@[simp] theorem writeReg_inQ (s : State) (r : Reg) (v : Word) : (s.writeReg r v).inQ = s.inQ := rfl
@[simp] theorem writeReg_inEnd (s : State) (r : Reg) (v : Word) : (s.writeReg r v).inEnd = s.inEnd := rfl
@[simp] theorem writeReg_out (s : State) (r : Reg) (v : Word) : (s.writeReg r v).out = s.out := rfl
@[simp] theorem writeReg_params (s : State) (r : Reg) (v : Word) : (s.writeReg r v).params = s.params := rfl

/-! ## State.jumpTo -/

@[simp] theorem jumpTo_regs (s : State) (a : Word) : (s.jumpTo a).regs = s.regs := rfl
@[simp] theorem jumpTo_pc (s : State) (a : Word) : (s.jumpTo a).pc = a := rfl
@[simp] theorem jumpTo_cond (s : State) (a : Word) : (s.jumpTo a).cond = s.cond := rfl
@[simp] theorem jumpTo_mem (s : State) (a : Word) : (s.jumpTo a).mem = s.mem := rfl
@[simp] theorem jumpTo_run (s : State) (a : Word) : (s.jumpTo a).run = s.run := rfl
@[simp] theorem jumpTo_inQ (s : State) (a : Word) : (s.jumpTo a).inQ = s.inQ := rfl
@[simp] theorem jumpTo_inEnd (s : State) (a : Word) : (s.jumpTo a).inEnd = s.inEnd := rfl
@[simp] theorem jumpTo_out (s : State) (a : Word) : (s.jumpTo a).out = s.out := rfl
@[simp] theorem jumpTo_params (s : State) (a : Word) : (s.jumpTo a).params = s.params := rfl
@[simp] theorem jumpTo_readReg (s : State) (a : Word) (q : Reg) : (s.jumpTo a).readReg q = s.readReg q := rfl

/-! ## memWrite -/

@[simp] theorem memWrite_regs (a v : Word) (s : State) : (memWrite a v s).regs = s.regs := rfl
@[simp] theorem memWrite_pc (a v : Word) (s : State) : (memWrite a v s).pc = s.pc := rfl
@[simp] theorem memWrite_cond (a v : Word) (s : State) : (memWrite a v s).cond = s.cond := rfl
@[simp] theorem memWrite_mem (a v : Word) (s : State) : (memWrite a v s).mem = s.mem.write a v := rfl
@[simp] theorem memWrite_run (a v : Word) (s : State) : (memWrite a v s).run = s.run := rfl
@[simp] theorem memWrite_inQ (a v : Word) (s : State) : (memWrite a v s).inQ = s.inQ := rfl
@[simp] theorem memWrite_inEnd (a v : Word) (s : State) : (memWrite a v s).inEnd = s.inEnd := rfl
@[simp] theorem memWrite_out (a v : Word) (s : State) : (memWrite a v s).out = s.out := rfl
@[simp] theorem memWrite_params (a v : Word) (s : State) : (memWrite a v s).params = s.params := rfl
@[simp] theorem memWrite_readReg (a v : Word) (s : State) (q : Reg) : (memWrite a v s).readReg q = s.readReg q := rfl

/-! ## outBytes -/

@[simp] theorem outBytes_regs (bs : List Byte) (s : State) : (outBytes bs s).regs = s.regs := rfl
@[simp] theorem outBytes_pc (bs : List Byte) (s : State) : (outBytes bs s).pc = s.pc := rfl
@[simp] theorem outBytes_cond (bs : List Byte) (s : State) : (outBytes bs s).cond = s.cond := rfl
@[simp] theorem outBytes_mem (bs : List Byte) (s : State) : (outBytes bs s).mem = s.mem := rfl
@[simp] theorem outBytes_run (bs : List Byte) (s : State) : (outBytes bs s).run = s.run := rfl
@[simp] theorem outBytes_inQ (bs : List Byte) (s : State) : (outBytes bs s).inQ = s.inQ := rfl
@[simp] theorem outBytes_inEnd (bs : List Byte) (s : State) : (outBytes bs s).inEnd = s.inEnd := rfl
@[simp] theorem outBytes_out (bs : List Byte) (s : State) : (outBytes bs s).out = s.out ++ bs.map .byte := rfl
@[simp] theorem outBytes_params (bs : List Byte) (s : State) : (outBytes bs s).params = s.params := rfl
@[simp] theorem outBytes_readReg (bs : List Byte) (s : State) (q : Reg) : (outBytes bs s).readReg q = s.readReg q := rfl

/-! ## outByte -/

@[simp] theorem outByte_regs (b : Byte) (s : State) : (outByte b s).regs = s.regs := rfl
@[simp] theorem outByte_pc (b : Byte) (s : State) : (outByte b s).pc = s.pc := rfl
@[simp] theorem outByte_cond (b : Byte) (s : State) : (outByte b s).cond = s.cond := rfl
@[simp] theorem outByte_mem (b : Byte) (s : State) : (outByte b s).mem = s.mem := rfl
@[simp] theorem outByte_run (b : Byte) (s : State) : (outByte b s).run = s.run := rfl
@[simp] theorem outByte_inQ (b : Byte) (s : State) : (outByte b s).inQ = s.inQ := rfl
@[simp] theorem outByte_inEnd (b : Byte) (s : State) : (outByte b s).inEnd = s.inEnd := rfl
@[simp] theorem outByte_out (b : Byte) (s : State) : (outByte b s).out = s.out ++ [.byte b] := rfl
@[simp] theorem outByte_params (b : Byte) (s : State) : (outByte b s).params = s.params := rfl
@[simp] theorem outByte_readReg (b : Byte) (s : State) (q : Reg) : (outByte b s).readReg q = s.readReg q := rfl

/-! ## flush -/

@[simp] theorem flush_regs (s : State) : (flush s).regs = s.regs := rfl
@[simp] theorem flush_pc (s : State) : (flush s).pc = s.pc := rfl
@[simp] theorem flush_cond (s : State) : (flush s).cond = s.cond := rfl
@[simp] theorem flush_mem (s : State) : (flush s).mem = s.mem := rfl
@[simp] theorem flush_run (s : State) : (flush s).run = s.run := rfl
@[simp] theorem flush_inQ (s : State) : (flush s).inQ = s.inQ := rfl
@[simp] theorem flush_inEnd (s : State) : (flush s).inEnd = s.inEnd := rfl
@[simp] theorem flush_out (s : State) : (flush s).out = s.out ++ [.flushMark] := rfl
@[simp] theorem flush_params (s : State) : (flush s).params = s.params := rfl
@[simp] theorem flush_readReg (s : State) (q : Reg) : (flush s).readReg q = s.readReg q := rfl

/-! ## raiseFault -/

@[simp] theorem raiseFault_regs (c : FatalCondition) (s : State) : (raiseFault c s).regs = s.regs := rfl
@[simp] theorem raiseFault_pc (c : FatalCondition) (s : State) : (raiseFault c s).pc = s.pc := rfl
@[simp] theorem raiseFault_cond (c : FatalCondition) (s : State) : (raiseFault c s).cond = s.cond := rfl
@[simp] theorem raiseFault_mem (c : FatalCondition) (s : State) : (raiseFault c s).mem = s.mem := rfl
@[simp] theorem raiseFault_run (c : FatalCondition) (s : State) : (raiseFault c s).run = .faulted c := rfl
@[simp] theorem raiseFault_inQ (c : FatalCondition) (s : State) : (raiseFault c s).inQ = s.inQ := rfl
@[simp] theorem raiseFault_inEnd (c : FatalCondition) (s : State) : (raiseFault c s).inEnd = s.inEnd := rfl
@[simp] theorem raiseFault_out (c : FatalCondition) (s : State) : (raiseFault c s).out = s.out := rfl
@[simp] theorem raiseFault_params (c : FatalCondition) (s : State) : (raiseFault c s).params = s.params := rfl
@[simp] theorem raiseFault_readReg (c : FatalCondition) (s : State) (q : Reg) : (raiseFault c s).readReg q = s.readReg q := rfl

/-! ## halt -/

@[simp] theorem halt_regs (s : State) : (halt s).regs = s.regs := rfl
@[simp] theorem halt_pc (s : State) : (halt s).pc = s.pc := rfl
@[simp] theorem halt_cond (s : State) : (halt s).cond = s.cond := rfl
@[simp] theorem halt_mem (s : State) : (halt s).mem = s.mem := rfl
@[simp] theorem halt_run (s : State) : (halt s).run = .halted := rfl
@[simp] theorem halt_inQ (s : State) : (halt s).inQ = s.inQ := rfl
@[simp] theorem halt_inEnd (s : State) : (halt s).inEnd = s.inEnd := rfl
@[simp] theorem halt_out (s : State) : (halt s).out = s.out := rfl
@[simp] theorem halt_params (s : State) : (halt s).params = s.params := rfl
@[simp] theorem halt_readReg (s : State) (q : Reg) : (halt s).readReg q = s.readReg q := rfl

/-! ## holdStep -/

@[simp] theorem holdStep_regs (s : State) : (holdStep s).regs = s.regs := rfl
@[simp] theorem holdStep_pc (s : State) : (holdStep s).pc = s.pc - 1#16 := rfl
@[simp] theorem holdStep_cond (s : State) : (holdStep s).cond = s.cond := rfl
@[simp] theorem holdStep_mem (s : State) : (holdStep s).mem = s.mem := rfl
@[simp] theorem holdStep_run (s : State) : (holdStep s).run = s.run := rfl
@[simp] theorem holdStep_inQ (s : State) : (holdStep s).inQ = s.inQ := rfl
@[simp] theorem holdStep_inEnd (s : State) : (holdStep s).inEnd = s.inEnd := rfl
@[simp] theorem holdStep_out (s : State) : (holdStep s).out = s.out := rfl
@[simp] theorem holdStep_params (s : State) : (holdStep s).params = s.params := rfl
@[simp] theorem holdStep_readReg (s : State) (q : Reg) : (holdStep s).readReg q = s.readReg q := rfl

/-! ## updateFlags -/

@[simp] theorem updateFlags_regs (r : Reg) (s : State) : (updateFlags r s).regs = s.regs := rfl
@[simp] theorem updateFlags_pc (r : Reg) (s : State) : (updateFlags r s).pc = s.pc := rfl
@[simp] theorem updateFlags_cond (r : Reg) (s : State) : (updateFlags r s).cond = condOf (s.readReg r) := rfl
@[simp] theorem updateFlags_mem (r : Reg) (s : State) : (updateFlags r s).mem = s.mem := rfl
@[simp] theorem updateFlags_run (r : Reg) (s : State) : (updateFlags r s).run = s.run := rfl
@[simp] theorem updateFlags_inQ (r : Reg) (s : State) : (updateFlags r s).inQ = s.inQ := rfl
@[simp] theorem updateFlags_inEnd (r : Reg) (s : State) : (updateFlags r s).inEnd = s.inEnd := rfl
@[simp] theorem updateFlags_out (r : Reg) (s : State) : (updateFlags r s).out = s.out := rfl
@[simp] theorem updateFlags_params (r : Reg) (s : State) : (updateFlags r s).params = s.params := rfl
@[simp] theorem updateFlags_readReg (r : Reg) (s : State) (q : Reg) : (updateFlags r s).readReg q = s.readReg q := rfl

/-! ## writeDest -/

@[simp] theorem writeDest_pc (dr : Reg) (v : Word) (s : State) : (writeDest dr v s).pc = s.pc := rfl
@[simp] theorem writeDest_mem (dr : Reg) (v : Word) (s : State) : (writeDest dr v s).mem = s.mem := rfl
@[simp] theorem writeDest_run (dr : Reg) (v : Word) (s : State) : (writeDest dr v s).run = s.run := rfl
@[simp] theorem writeDest_inQ (dr : Reg) (v : Word) (s : State) : (writeDest dr v s).inQ = s.inQ := rfl
@[simp] theorem writeDest_inEnd (dr : Reg) (v : Word) (s : State) : (writeDest dr v s).inEnd = s.inEnd := rfl
@[simp] theorem writeDest_out (dr : Reg) (v : Word) (s : State) : (writeDest dr v s).out = s.out := rfl
@[simp] theorem writeDest_params (dr : Reg) (v : Word) (s : State) : (writeDest dr v s).params = s.params := rfl
@[simp] theorem writeDest_readReg (dr : Reg) (v : Word) (s : State) (q : Reg) :
    (writeDest dr v s).readReg q = if q = dr then v else s.readReg q := readReg_writeReg s dr q v
@[simp] theorem writeDest_cond (dr : Reg) (v : Word) (s : State) : (writeDest dr v s).cond = condOf v := by
  simp [writeDest]

/-! ## saveReturn -/

@[simp] theorem saveReturn_pc (s : State) : (saveReturn s).pc = s.pc := rfl
@[simp] theorem saveReturn_cond (s : State) : (saveReturn s).cond = s.cond := rfl
@[simp] theorem saveReturn_mem (s : State) : (saveReturn s).mem = s.mem := rfl
@[simp] theorem saveReturn_run (s : State) : (saveReturn s).run = s.run := rfl
@[simp] theorem saveReturn_inQ (s : State) : (saveReturn s).inQ = s.inQ := rfl
@[simp] theorem saveReturn_inEnd (s : State) : (saveReturn s).inEnd = s.inEnd := rfl
@[simp] theorem saveReturn_out (s : State) : (saveReturn s).out = s.out := rfl
@[simp] theorem saveReturn_params (s : State) : (saveReturn s).params = s.params := rfl
@[simp] theorem saveReturn_readReg (s : State) (q : Reg) :
    (saveReturn s).readReg q = if q = 7#3 then s.pc else s.readReg q := readReg_writeReg s 7#3 q s.pc

/-! ## trapEntry -/

@[simp] theorem trapEntry_pc (s : State) : (trapEntry s).pc = s.pc := by
  unfold trapEntry; split <;> rfl
@[simp] theorem trapEntry_cond (s : State) : (trapEntry s).cond = s.cond := by
  unfold trapEntry; split <;> rfl
@[simp] theorem trapEntry_mem (s : State) : (trapEntry s).mem = s.mem := by
  unfold trapEntry; split <;> rfl
@[simp] theorem trapEntry_run (s : State) : (trapEntry s).run = s.run := by
  unfold trapEntry; split <;> rfl
@[simp] theorem trapEntry_inQ (s : State) : (trapEntry s).inQ = s.inQ := by
  unfold trapEntry; split <;> rfl
@[simp] theorem trapEntry_inEnd (s : State) : (trapEntry s).inEnd = s.inEnd := by
  unfold trapEntry; split <;> rfl
@[simp] theorem trapEntry_out (s : State) : (trapEntry s).out = s.out := by
  unfold trapEntry; split <;> rfl
@[simp] theorem trapEntry_params (s : State) : (trapEntry s).params = s.params := by
  unfold trapEntry; split <;> rfl
@[simp] theorem trapEntry_readReg (s : State) (q : Reg) :
    (trapEntry s).readReg q = if q = 7#3 ∧ s.params.trapWritesR7 = true then s.pc else s.readReg q := by
  unfold trapEntry; split <;> simp_all

/-! ## receiveByte -/

@[simp] theorem receiveByte_pc (b : Byte) (s : State) : (receiveByte b s).pc = s.pc := by
  unfold receiveByte; split <;> rfl
@[simp] theorem receiveByte_mem (b : Byte) (s : State) : (receiveByte b s).mem = s.mem := by
  unfold receiveByte; split <;> rfl
@[simp] theorem receiveByte_run (b : Byte) (s : State) : (receiveByte b s).run = s.run := by
  unfold receiveByte; split <;> rfl
@[simp] theorem receiveByte_inQ (b : Byte) (s : State) : (receiveByte b s).inQ = s.inQ := by
  unfold receiveByte; split <;> rfl
@[simp] theorem receiveByte_inEnd (b : Byte) (s : State) : (receiveByte b s).inEnd = s.inEnd := by
  unfold receiveByte; split <;> rfl
@[simp] theorem receiveByte_out (b : Byte) (s : State) : (receiveByte b s).out = s.out := by
  unfold receiveByte; split <;> rfl
@[simp] theorem receiveByte_params (b : Byte) (s : State) : (receiveByte b s).params = s.params := by
  unfold receiveByte; split <;> rfl
@[simp] theorem receiveByte_readReg (b : Byte) (s : State) (q : Reg) :
    (receiveByte b s).readReg q = if q = 0#3 then zext8 b else s.readReg q := by
  unfold receiveByte; split <;> simp
@[simp] theorem receiveByte_cond (b : Byte) (s : State) : (receiveByte b s).cond =
    if s.params.trapInputSetsFlags = true then condOf (zext8 b) else s.cond := by
  unfold receiveByte; split <;> simp

/-! ## printScan, puts, putsp -/

@[simp] theorem printScan_pc (r : StringScan) (s : State) : (printScan r s).pc = s.pc := by
  unfold printScan; split <;> rfl
@[simp] theorem printScan_cond (r : StringScan) (s : State) : (printScan r s).cond = s.cond := by
  unfold printScan; split <;> rfl
@[simp] theorem printScan_mem (r : StringScan) (s : State) : (printScan r s).mem = s.mem := by
  unfold printScan; split <;> rfl
@[simp] theorem printScan_inQ (r : StringScan) (s : State) : (printScan r s).inQ = s.inQ := by
  unfold printScan; split <;> rfl
@[simp] theorem printScan_inEnd (r : StringScan) (s : State) : (printScan r s).inEnd = s.inEnd := by
  unfold printScan; split <;> rfl
@[simp] theorem printScan_params (r : StringScan) (s : State) : (printScan r s).params = s.params := by
  unfold printScan; split <;> rfl
@[simp] theorem printScan_readReg (r : StringScan) (s : State) (q : Reg) :
    (printScan r s).readReg q = s.readReg q := by
  unfold printScan; split <;> rfl
@[simp] theorem puts_pc (s : State) : (puts s).pc = s.pc := printScan_pc _ s
@[simp] theorem puts_cond (s : State) : (puts s).cond = s.cond := printScan_cond _ s
@[simp] theorem puts_mem (s : State) : (puts s).mem = s.mem := printScan_mem _ s
@[simp] theorem puts_inQ (s : State) : (puts s).inQ = s.inQ := printScan_inQ _ s
@[simp] theorem puts_inEnd (s : State) : (puts s).inEnd = s.inEnd := printScan_inEnd _ s
@[simp] theorem puts_params (s : State) : (puts s).params = s.params := printScan_params _ s
@[simp] theorem puts_readReg (s : State) (q : Reg) : (puts s).readReg q = s.readReg q := printScan_readReg _ s q
@[simp] theorem putsp_pc (s : State) : (putsp s).pc = s.pc := printScan_pc _ s
@[simp] theorem putsp_cond (s : State) : (putsp s).cond = s.cond := printScan_cond _ s
@[simp] theorem putsp_mem (s : State) : (putsp s).mem = s.mem := printScan_mem _ s
@[simp] theorem putsp_inQ (s : State) : (putsp s).inQ = s.inQ := printScan_inQ _ s
@[simp] theorem putsp_inEnd (s : State) : (putsp s).inEnd = s.inEnd := printScan_inEnd _ s
@[simp] theorem putsp_params (s : State) : (putsp s).params = s.params := printScan_params _ s
@[simp] theorem putsp_readReg (s : State) (q : Reg) : (putsp s).readReg q = s.readReg q := printScan_readReg _ s q

end Sys2Proof.Machine
end

