-- ==== Sys2Proof/Laws/Ops.lean ====
section
/-! SUPPORT. What each shared operation can do, said once: the console input, the poll, a read, a load,
the flags. -/

namespace Sys2Proof.Machine

/-! ## Flags -/

/-- The flag of a word is the one R17 gives it. -/
theorem flagsOf_condOf (v : Word) : FlagsOf v (condOf v) := by
  refine ⟨?_, ?_, ?_⟩ <;> intros <;> simp_all [condOf, condN, condZ, condP]

theorem oneFlag_condOf (v : Word) : OneFlag (condOf v) := by
  unfold condOf
  split
  · exact .inr (.inl rfl)
  · split
    · exact .inr (.inr rfl)
    · exact .inl rfl

/-- A write of DR with its flags leaves a result as `ResultIn` says. -/
theorem resultIn_writeDest (dr : Reg) (v : Word) (u : State) :
    ResultIn (.next (writeDest dr v u)) dr v u := by
  refine ⟨_, rfl, by simp, by simpa using flagsOf_condOf v, fun r hr => ?_, rfl, fun _ _ => rfl,
    ⟨rfl, rfl, rfl⟩, rfl, rfl⟩
  simp at hr
  simp [hr]

/-- A write of memory leaves a store as `StoredIn` says. -/
theorem storedIn_memWrite (a v : Word) (u : State) : StoredIn (.next (memWrite a v u)) a v u := by
  refine ⟨_, rfl, by simp, fun b hb => ?_, fun _ _ => rfl, rfl, rfl, ⟨rfl, rfl, rfl⟩, rfl, rfl⟩
  simp at hb
  simp [hb]

/-! ## The console input -/

theorem inByte_cons {s : State} {b : Byte} {rest : List Byte} (h : s.inQ = b :: rest) :
    inByte s = .byte b { s with inQ := rest } := by simp [inByte, h]

theorem inByte_end {s : State} (h : s.inQ = []) (he : s.inEnd = true) : inByte s = .endOfInput := by
  simp [inByte, h, he]

theorem inByte_hold {s : State} (h : s.noInput) : inByte s = .hold := by simp [inByte, h.1, h.2]

/-- The three things `InByte()` can meet (R44). -/
theorem inByte_cases (s : State) :
    (∃ b rest, s.inQ = b :: rest ∧ inByte s = .byte b { s with inQ := rest }) ∨
    (s.inQ = [] ∧ s.inEnd = true ∧ inByte s = .endOfInput) ∨ (s.noInput ∧ inByte s = .hold) := by
  rcases hq : s.inQ with _ | ⟨b, rest⟩
  · rcases he : s.inEnd with _ | _
    · exact .inr (.inr ⟨⟨hq, he⟩, inByte_hold ⟨hq, he⟩⟩)
    · exact .inr (.inl ⟨rfl, rfl, inByte_end hq he⟩)
  · exact .inl ⟨b, rest, rfl, inByte_cons hq⟩

/-! ## The poll and the read -/

theorem poll_hold {s : State} (h : s.noInput) : poll s = none := by simp [poll, inByte_hold h]

/-- A poll with input at hand, or its end, does what R31 says. -/
theorem poll_polled {s : State} (h : ¬ s.noInput) : ∃ u, poll s = some u ∧ PolledTo s u := by
  have hne : Config.kbdrAddr ≠ Config.kbsrAddr := by decide
  rcases inByte_cases s with ⟨b, rest, hq, hi⟩ | ⟨hq, he, hi⟩ | ⟨hn, -⟩
  · by_cases hb : b = 0x00#8
    · refine ⟨memWrite Config.kbsrAddr 0x0000#16 { s with inQ := rest }, by simp [poll, hi, hb],
        fun _ _ => rfl, rfl, rfl, ⟨rfl, rfl⟩, rfl, rfl, .inr ⟨.inl (by simp [hq, hb]), by simp, fun a ha => ?_⟩⟩
      simp at ha
      simp [ha]
    · refine ⟨memWrite Config.kbsrAddr kbsrReady (memWrite Config.kbdrAddr (zext8 b) { s with inQ := rest }),
        by simp [poll, hi, hb], fun _ _ => rfl, rfl, rfl, ⟨rfl, rfl⟩, rfl, rfl, .inl ⟨b, hb, by simp [hq], by simp [kbsrReady], by simp [hne], fun a ha => ?_⟩⟩
      simp at ha
      simp [ha.1, ha.2]
  · refine ⟨memWrite Config.kbsrAddr 0x0000#16 s, by simp [poll, hi], fun _ _ => rfl, rfl, rfl,
      ⟨rfl, rfl⟩, rfl, rfl, .inr ⟨.inr ⟨hq, he, by simp [hq]⟩, by simp, fun a ha => ?_⟩⟩
    simp at ha
    simp [ha]
  · exact absurd hn h

/-- After a poll KBSR holds 0x8000 or 0x0000, so it is no address of KBSR. -/
theorem PolledTo.kbsr {s u : State} (h : PolledTo s u) :
    u.mem.read Config.kbsrAddr = 0x8000#16 ∨ u.mem.read Config.kbsrAddr = 0x0000#16 := by
  obtain ⟨-, -, -, -, -, -, ⟨b, -, -, hk, -⟩ | ⟨-, hk, -⟩⟩ := h
  · exact .inl hk
  · exact .inr hk

theorem PolledTo.kbsr_ne {s u : State} (h : PolledTo s u) : u.mem.read Config.kbsrAddr ≠ Config.kbsrAddr := by
  rcases h.kbsr with e | e <;> rw [e] <;> decide

/-- A poll changes no word of memory but KBSR and KBDR. -/
theorem PolledTo.mem {s u : State} (h : PolledTo s u) : SameMemBut [Config.kbsrAddr, Config.kbdrAddr] s u := by
  obtain ⟨-, -, -, -, -, -, ⟨b, -, -, -, -, hm⟩ | ⟨-, -, hm⟩⟩ := h
  · exact hm
  · exact fun a ha => hm a (by simp at ha; simp [ha.1])

theorem memRead_plain {a : Word} {s : State} (h : a ≠ Config.kbsrAddr) :
    memRead a s = some (s.mem.read a, s) := by simp [memRead, h]

theorem memRead_hold {s : State} (h : s.noInput) : memRead Config.kbsrAddr s = none := by
  simp [memRead, poll_hold h]

theorem memRead_polled {s : State} (h : ¬ s.noInput) :
    ∃ u, PolledTo s u ∧ memRead Config.kbsrAddr s = some (u.mem.read Config.kbsrAddr, u) := by
  obtain ⟨u, hp, hu⟩ := poll_polled h
  exact ⟨u, hu, by simp [memRead, hp]⟩

/-- The three things `MemRead` can do (R35). -/
theorem memRead_cases (a : Word) (s : State) :
    (a ≠ Config.kbsrAddr ∧ memRead a s = some (s.mem.read a, s)) ∨
    (a = Config.kbsrAddr ∧ ¬ s.noInput ∧ ∃ u, PolledTo s u ∧ memRead a s = some (u.mem.read a, u)) ∨
    (a = Config.kbsrAddr ∧ s.noInput ∧ memRead a s = none) := by
  by_cases ha : a = Config.kbsrAddr
  · subst ha
    by_cases hn : s.noInput
    · exact .inr (.inr ⟨rfl, hn, memRead_hold hn⟩)
    · exact .inr (.inl ⟨rfl, hn, memRead_polled hn⟩)
  · exact .inl ⟨ha, memRead_plain ha⟩

/-- What a read keeps, whatever it read: all but the input and, at KBSR, the keyboard registers. -/
theorem memRead_frame {a v : Word} {s u : State} (h : memRead a s = some (v, u)) :
    (∀ r, u.readReg r = s.readReg r) ∧ u.pc = s.pc ∧ u.cond = s.cond ∧ SameRun s u ∧ u.inEnd = s.inEnd ∧
      u.out = s.out ∧ v = u.mem.read a ∧ SameMemBut (polledAddrs a) s u ∧
      (u.inQ = s.inQ ∨ ∃ b, s.inQ = b :: u.inQ) := by
  rcases memRead_cases a s with ⟨-, e⟩ | ⟨ha, -, w, hw, e⟩ | ⟨-, -, e⟩ <;> rw [e] at h <;> cases h
  · exact ⟨fun _ => rfl, rfl, rfl, ⟨rfl, rfl⟩, rfl, rfl, rfl, fun _ _ => rfl, .inl rfl⟩
  · have hm := hw.mem
    obtain ⟨h1, h2, h3, h4, h5, h6, h7⟩ := hw
    refine ⟨fun r => h1 r (by simp), h2, h3, h4, h5, h6, rfl, by rwa [polledAddrs, if_pos ha], ?_⟩
    rcases h7 with ⟨b, -, hq, -⟩ | ⟨hq | ⟨hq, -, hq'⟩, -⟩
    · exact .inr ⟨b, hq⟩
    · exact .inr ⟨_, hq⟩
    · exact .inl (by rw [hq, hq'])

/-- A pointer read that polled is no pointer to KBSR, so LDI and STI take at most one byte (R86, R90). -/
theorem memRead_ptr {a p : Word} {s t : State} (h : memRead a s = some (p, t)) :
    t = s ∨ (a = Config.kbsrAddr ∧ p ≠ Config.kbsrAddr) := by
  rcases memRead_cases a s with ⟨-, e⟩ | ⟨ha, -, w, hw, e⟩ | ⟨-, -, e⟩ <;> rw [e] at h <;> cases h
  · exact .inl rfl
  · exact .inr ⟨ha, by rw [ha]; exact hw.kbsr_ne⟩

/-- A poll keeps the canonical form of memory. -/
theorem poll_wf {s u : State} (h : poll s = some u) (hw : s.mem.wf) : u.mem.wf := by
  unfold poll at h
  rcases inByte_cases s with ⟨b, r, -, e⟩ | ⟨-, -, e⟩ | ⟨-, e⟩ <;> rw [e] at h <;> simp only at h
  · split at h <;> cases h
    · exact Memory.wf_write (Memory.wf_write hw _ _) _ _
    · exact Memory.wf_write hw _ _
  · cases h
    exact Memory.wf_write hw _ _
  · cases h

/-- A read keeps the canonical form of memory. -/
theorem memRead_wf {a v : Word} {s u : State} (h : memRead a s = some (v, u)) (hw : s.mem.wf) : u.mem.wf := by
  unfold memRead at h
  split at h
  · rcases hp : poll s with _ | w <;> rw [hp] at h <;> cases h
    exact poll_wf hp hw
  · cases h
    exact hw

/-! ## Loads -/

theorem loadFrom_plain (dr : Reg) {addr : Word} {t s : State} (h : addr ≠ Config.kbsrAddr) :
    ResultIn (loadFrom dr addr t s) dr (t.mem.read addr) t := by
  simp only [loadFrom, memRead_plain h]
  exact resultIn_writeDest dr _ t

theorem loadFrom_polled (dr : Reg) {t s : State} (h : ¬ t.noInput) :
    ∃ u, PolledTo t u ∧ ResultIn (loadFrom dr Config.kbsrAddr t s) dr (u.mem.read Config.kbsrAddr) u := by
  obtain ⟨u, hu, hm⟩ := memRead_polled h
  refine ⟨u, hu, ?_⟩
  simp only [loadFrom, hm]
  exact resultIn_writeDest dr _ u

theorem loadFrom_hold (dr : Reg) {t s : State} (h : t.noInput) :
    loadFrom dr Config.kbsrAddr t s = .next (holdStep s) := by
  simp only [loadFrom, memRead_hold h]

/-- A load always answers a next state: a read gives a word, or the step holds. -/
theorem loadFrom_cases (dr : Reg) (addr : Word) (t s : State) :
    (∃ v u, memRead addr t = some (v, u) ∧ loadFrom dr addr t s = .next (writeDest dr v u)) ∨
    (memRead addr t = none ∧ loadFrom dr addr t s = .next (holdStep s)) := by
  unfold loadFrom
  rcases memRead addr t with _ | ⟨v, u⟩
  · exact .inr ⟨rfl, rfl⟩
  · exact .inl ⟨v, u, rfl, rfl⟩

end Sys2Proof.Machine
end

