-- ==== Sys2Proof/Laws/PerInstr.lean ====
section
/-! SUPPORT. A family of facts per instruction: the opcode field of its word is the number R56 gives its
name. -/

namespace Sys2Proof.Laws

/-- The opcode map of R56 (the numbers are the spec's decision D1, log 9). -/
def opcodeNumber : Instr → BitVec 4
  | .br _ _ _ _ => 0x0#4
  | .add _ _ _ _ => 0x1#4
  | .addi _ _ _ => 0x1#4
  | .ld _ _ => 0x2#4
  | .st _ _ => 0x3#4
  | .jsrr _ _ _ => 0x4#4
  | .jsr _ => 0x4#4
  | .and _ _ _ _ => 0x5#4
  | .andi _ _ _ => 0x5#4
  | .ldr _ _ _ => 0x6#4
  | .str _ _ _ => 0x7#4
  | .rti _ => 0x8#4
  | .not _ _ _ => 0x9#4
  | .ldi _ _ => 0xA#4
  | .sti _ _ => 0xB#4
  | .jmp _ _ _ => 0xC#4
  | .res _ => 0xD#4
  | .lea _ _ => 0xE#4
  | .trapGetc _ => 0xF#4
  | .trapOut _ => 0xF#4
  | .trapPuts _ => 0xF#4
  | .trapIn _ => 0xF#4
  | .trapPutsp _ => 0xF#4
  | .trapHalt _ => 0xF#4
  | .trapOther _ _ => 0xF#4

/-- The word's bits 15:12 are the opcode of the instruction (R55, R56). -/
def OpcodeBits.Statement (i : Instr) : Prop := opcodeOf (encode i) = opcodeNumber i

theorem opcodeOf_encode (i : Instr) : OpcodeBits.Statement i := by
  cases i <;> simp [OpcodeBits.Statement, opcodeNumber, encode, opcodeOf, BitVec.extractLsb'_append_eq_ite,
    -Nat.reduceAdd]

theorem OpcodeBits.br (n : Bool) (z : Bool) (p : Bool) (off : BitVec 9) :
    OpcodeBits.Statement (.br n z p off) :=
  opcodeOf_encode _

theorem OpcodeBits.add (dr : Reg) (sr1 : Reg) (sr2 : Reg) (ign : BitVec 2) :
    OpcodeBits.Statement (.add dr sr1 sr2 ign) :=
  opcodeOf_encode _

theorem OpcodeBits.addi (dr : Reg) (sr1 : Reg) (imm : BitVec 5) :
    OpcodeBits.Statement (.addi dr sr1 imm) :=
  opcodeOf_encode _

theorem OpcodeBits.ld (dr : Reg) (off : BitVec 9) :
    OpcodeBits.Statement (.ld dr off) :=
  opcodeOf_encode _

theorem OpcodeBits.st (sr : Reg) (off : BitVec 9) :
    OpcodeBits.Statement (.st sr off) :=
  opcodeOf_encode _

theorem OpcodeBits.jsrr (base : Reg) (ignHi : BitVec 2) (ignLo : BitVec 6) :
    OpcodeBits.Statement (.jsrr base ignHi ignLo) :=
  opcodeOf_encode _

theorem OpcodeBits.jsr (off : BitVec 11) :
    OpcodeBits.Statement (.jsr off) :=
  opcodeOf_encode _

theorem OpcodeBits.and (dr : Reg) (sr1 : Reg) (sr2 : Reg) (ign : BitVec 2) :
    OpcodeBits.Statement (.and dr sr1 sr2 ign) :=
  opcodeOf_encode _

theorem OpcodeBits.andi (dr : Reg) (sr1 : Reg) (imm : BitVec 5) :
    OpcodeBits.Statement (.andi dr sr1 imm) :=
  opcodeOf_encode _

theorem OpcodeBits.ldr (dr : Reg) (base : Reg) (off : BitVec 6) :
    OpcodeBits.Statement (.ldr dr base off) :=
  opcodeOf_encode _

theorem OpcodeBits.str (sr : Reg) (base : Reg) (off : BitVec 6) :
    OpcodeBits.Statement (.str sr base off) :=
  opcodeOf_encode _

theorem OpcodeBits.rti (ign : BitVec 12) :
    OpcodeBits.Statement (.rti ign) :=
  opcodeOf_encode _

theorem OpcodeBits.not (dr : Reg) (sr : Reg) (ign : BitVec 6) :
    OpcodeBits.Statement (.not dr sr ign) :=
  opcodeOf_encode _

theorem OpcodeBits.ldi (dr : Reg) (off : BitVec 9) :
    OpcodeBits.Statement (.ldi dr off) :=
  opcodeOf_encode _

theorem OpcodeBits.sti (sr : Reg) (off : BitVec 9) :
    OpcodeBits.Statement (.sti sr off) :=
  opcodeOf_encode _

theorem OpcodeBits.jmp (base : Reg) (ignHi : BitVec 3) (ignLo : BitVec 6) :
    OpcodeBits.Statement (.jmp base ignHi ignLo) :=
  opcodeOf_encode _

theorem OpcodeBits.res (ign : BitVec 12) :
    OpcodeBits.Statement (.res ign) :=
  opcodeOf_encode _

theorem OpcodeBits.lea (dr : Reg) (off : BitVec 9) :
    OpcodeBits.Statement (.lea dr off) :=
  opcodeOf_encode _

theorem OpcodeBits.trapGetc (ign : BitVec 4) :
    OpcodeBits.Statement (.trapGetc ign) :=
  opcodeOf_encode _

theorem OpcodeBits.trapOut (ign : BitVec 4) :
    OpcodeBits.Statement (.trapOut ign) :=
  opcodeOf_encode _

theorem OpcodeBits.trapPuts (ign : BitVec 4) :
    OpcodeBits.Statement (.trapPuts ign) :=
  opcodeOf_encode _

theorem OpcodeBits.trapIn (ign : BitVec 4) :
    OpcodeBits.Statement (.trapIn ign) :=
  opcodeOf_encode _

theorem OpcodeBits.trapPutsp (ign : BitVec 4) :
    OpcodeBits.Statement (.trapPutsp ign) :=
  opcodeOf_encode _

theorem OpcodeBits.trapHalt (ign : BitVec 4) :
    OpcodeBits.Statement (.trapHalt ign) :=
  opcodeOf_encode _

theorem OpcodeBits.trapOther (ign : BitVec 4) (vector : Byte) :
    OpcodeBits.Statement (.trapOther ign vector) :=
  opcodeOf_encode _

end Sys2Proof.Laws
end

