-- ==== Sys2Proof/Laws/Scan.lean ====
section
/-! SUPPORT. The string scans of PUTS and PUTSP, unrolled to the spec's loops (R98, R101). -/

namespace Sys2Proof.Machine

theorem wordAt_zero (m : Memory) (a : Word) : wordAt m a 0 = m.read a := by simp [wordAt]

theorem wordAt_succ (m : Memory) (a : Word) (k : Nat) : wordAt m a (k + 1) = wordAt m (a + 1#16) k := by
  have : a + BitVec.ofNat 16 (k + 1) = a + 1#16 + BitVec.ofNat 16 k := by
    apply BitVec.eq_of_toNat_eq
    simp
    omega
  simp [wordAt, this]

/-- How many words a scan can read from `a` before it reaches 0xFE00, the address wrapping. -/
def wordsToKbsr (a : Word) : Nat := (Config.kbsrAddr - a).toNat

theorem wordsToKbsr_lt (a : Word) : wordsToKbsr a < Config.memWords := BitVec.isLt _

theorem toNat_pred {y : Word} (h : y ≠ 0#16) : y.toNat = (y - 1#16).toNat + 1 := by
  have h0 : y.toNat ≠ 0 := fun e => h (BitVec.eq_of_toNat_eq e)
  have := y.isLt
  rw [BitVec.toNat_sub]
  simp only [BitVec.toNat_ofNat]
  omega

/-- One word fewer at each turn of a loop. -/
theorem wordsToKbsr_succ {a : Word} (h : a ≠ Config.kbsrAddr) : wordsToKbsr a = wordsToKbsr (a + 1#16) + 1 := by
  have h0 : Config.kbsrAddr - a ≠ 0#16 := fun e => h (sub_eq_zero.mp e).symm
  have h1 : Config.kbsrAddr - (a + 1#16) = Config.kbsrAddr - a - 1#16 := sub_add_eq_sub_sub _ _ _
  unfold wordsToKbsr
  rw [h1]
  exact toNat_pred h0

/-! ## PUTS -/

/-- With any fuel the loop of PUTS stops at 0xFE00 (R95). -/
theorem putsScan_kbsr (m : Memory) (fuel : Nat) : putsScan m fuel Config.kbsrAddr = ⟨[], false⟩ := by
  cases fuel <;> simp [putsScan, stringRead]

theorem putsScan_fuel (m : Memory) (fuel : Nat) {a : Word} (h : a ≠ Config.kbsrAddr) :
    putsScan m (fuel + 1) a = if m.read a = 0x0000#16 then ⟨[], true⟩
      else (putsScan m fuel (a + 1#16)).after [lowByte (m.read a)] := by
  simp only [putsScan, stringRead, if_neg h]

/-- Fuel for the words before 0xFE00 is enough: more changes nothing. -/
theorem putsScan_enough (m : Memory) (fuel : Nat) (a : Word) (h : wordsToKbsr a ≤ fuel) :
    putsScan m (fuel + 1) a = putsScan m fuel a := by
  induction fuel generalizing a with
  | zero =>
    have ha : a = Config.kbsrAddr := by
      by_contra hne
      have := wordsToKbsr_succ hne
      omega
    rw [ha, putsScan_kbsr, putsScan_kbsr]
  | succ fuel ih =>
    by_cases ha : a = Config.kbsrAddr
    · rw [ha, putsScan_kbsr, putsScan_kbsr]
    · have := wordsToKbsr_succ ha
      rw [putsScan_fuel m _ ha, putsScan_fuel m _ ha, ih (a + 1#16) (by omega)]

/-- One turn of the spec's loop of PUTS (R98), with the fuel the service has. -/
theorem putsScan_turn (m : Memory) {a : Word} (h : a ≠ Config.kbsrAddr) :
    putsScan m Config.memWords a = if m.read a = 0x0000#16 then ⟨[], true⟩
      else (putsScan m Config.memWords (a + 1#16)).after [lowByte (m.read a)] := by
  rw [← putsScan_enough m _ a (wordsToKbsr_lt a).le, putsScan_fuel m _ h]

/-! ## PUTSP -/

theorem putspScan_kbsr (z : Bool) (m : Memory) (fuel : Nat) :
    putspScan z m fuel Config.kbsrAddr = ⟨[], false⟩ := by
  cases fuel <;> simp [putspScan, stringRead]

theorem putspScan_fuel (z : Bool) (m : Memory) (fuel : Nat) {a : Word} (h : a ≠ Config.kbsrAddr) :
    putspScan z m (fuel + 1) a = if m.read a = 0x0000#16 then ⟨[], true⟩
      else if highByte (m.read a) = 0x00#8 then
        if z then ⟨[lowByte (m.read a)], true⟩
        else (putspScan z m fuel (a + 1#16)).after [lowByte (m.read a)]
      else (putspScan z m fuel (a + 1#16)).after [lowByte (m.read a), highByte (m.read a)] := by
  simp only [putspScan, stringRead, if_neg h]

theorem putspScan_enough (z : Bool) (m : Memory) (fuel : Nat) (a : Word) (h : wordsToKbsr a ≤ fuel) :
    putspScan z m (fuel + 1) a = putspScan z m fuel a := by
  induction fuel generalizing a with
  | zero =>
    have ha : a = Config.kbsrAddr := by
      by_contra hne
      have := wordsToKbsr_succ hne
      omega
    rw [ha, putspScan_kbsr, putspScan_kbsr]
  | succ fuel ih =>
    by_cases ha : a = Config.kbsrAddr
    · rw [ha, putspScan_kbsr, putspScan_kbsr]
    · have := wordsToKbsr_succ ha
      rw [putspScan_fuel z m _ ha, putspScan_fuel z m _ ha, ih (a + 1#16) (by omega)]

/-- One turn of the spec's loop of PUTSP (R101), with the fuel the service has. -/
theorem putspScan_turn (z : Bool) (m : Memory) {a : Word} (h : a ≠ Config.kbsrAddr) :
    putspScan z m Config.memWords a = if m.read a = 0x0000#16 then ⟨[], true⟩
      else if highByte (m.read a) = 0x00#8 then
        if z then ⟨[lowByte (m.read a)], true⟩
        else (putspScan z m Config.memWords (a + 1#16)).after [lowByte (m.read a)]
      else (putspScan z m Config.memWords (a + 1#16)).after [lowByte (m.read a), highByte (m.read a)] := by
  rw [← putspScan_enough z m _ a (wordsToKbsr_lt a).le, putspScan_fuel z m _ h]

/-! ## Runs of nonzero words -/

/-- A run of `n + 1` nonzero words is one such word and a run of `n` after it. -/
theorem nonzeroRun_succ {m : Memory} {a : Word} {n : Nat} :
    NonzeroRun m a (n + 1) ↔
      (a ≠ Config.kbsrAddr ∧ m.read a ≠ 0x0000#16) ∧ NonzeroRun m (a + 1#16) n := by
  have hadd (k : Nat) : a + BitVec.ofNat 16 (k + 1) = a + 1#16 + BitVec.ofNat 16 k := by
    apply BitVec.eq_of_toNat_eq
    simp
    omega
  constructor
  · intro h
    refine ⟨by simpa [wordAt] using h 0 (by omega), fun k hk => ?_⟩
    have := h (k + 1) (by omega)
    rwa [hadd, wordAt_succ] at this
  · rintro ⟨h0, h⟩ k hk
    rcases k with _ | k
    · simpa [wordAt] using h0
    · rw [hadd, wordAt_succ]
      exact h k (by omega)

end Sys2Proof.Machine
end

