-- ==== Sys2Proof/Laws/Step.lean ====
section
/-! SUPPORT. What a fetch, a step, the second step of IN and a host move can do, said once each. -/

namespace Sys2Proof.Machine

/-- The branch test of R81, bit by bit. -/
theorem branchTaken_eq (n z p : Bool) (c : Word) :
    branchTaken n z p c = ((n && c.getLsbD 2) || (z && c.getLsbD 1) || (p && c.getLsbD 0)) := by
  have key : branchMask n z p &&& c = 0#13 ++ BitVec.ofBool (n && c.getLsbD 2) ++
      BitVec.ofBool (z && c.getLsbD 1) ++ BitVec.ofBool (p && c.getLsbD 0) := by
    apply BitVec.eq_of_getLsbD_eq
    intro i hi
    rw [BitVec.getLsbD_and, branchMask]
    interval_cases i <;> simp [BitVec.getLsbD_append, -Nat.reduceAdd, -BitVec.getLsbD_eq_getElem]
  unfold branchTaken
  rw [key]
  generalize (n && c.getLsbD 2) = a
  generalize (z && c.getLsbD 1) = b
  generalize (p && c.getLsbD 0) = d
  cases a <;> cases b <;> cases d <;> rfl

/-- The word a ready keyboard makes a fetch at KBSR read is an RTI (R69). -/
theorem exec_ready (s : State) :
    exec (decodeWord 0x8000#16) s = .next (raiseUnsupportedOpcode 0x8#4 0x8000#16 s) := by
  rw [show decodeWord 0x8000#16 = .rti 0#12 by decide]
  simp only [exec, execRti]
  rw [show encode (.rti 0#12) = 0x8000#16 by decide]

/-- The zero word is a branch with no mask bit: it does nothing (R81). -/
theorem exec_zero (s : State) : exec (decodeWord 0x0000#16) s = .next s := by
  rw [show decodeWord 0x0000#16 = .br false false false 0#9 by decide]
  simp [exec, execBr, branchTaken, branchMask]

/-- The three things a fetch can do (R68, R69). -/
theorem fetch_cases (s : State) :
    (s.pc ≠ Config.kbsrAddr ∧ fetch s = some (s.mem.read s.pc, s.jumpTo (s.pc + 1#16))) ∨
    (s.pc = Config.kbsrAddr ∧ ¬ s.noInput ∧ ∃ u, poll s = some u ∧ PolledTo s u ∧
      fetch s = some (u.mem.read Config.kbsrAddr, u.jumpTo (u.pc + 1#16))) ∨
    (s.pc = Config.kbsrAddr ∧ s.noInput ∧ fetch s = none) := by
  by_cases hp : s.pc = Config.kbsrAddr
  · by_cases hn : s.noInput
    · exact .inr (.inr ⟨hp, hn, by simp [fetch, hp, memRead_hold hn]⟩)
    · obtain ⟨u, hu, hw⟩ := poll_polled hn
      exact .inr (.inl ⟨hp, hn, u, hu, hw, by simp [fetch, hp, memRead, hu]⟩)
  · exact .inl ⟨hp, by simp [fetch, memRead_plain hp]⟩

/-- Everything a step that answers a next state can have done: run the fetched instruction, poll at
0xFE00 and run the word read there, hold at 0xFE00, or take the second step of IN. -/
theorem step_cases {s t : State} (h : step s = .next t) :
    (s.run = .running ∧ s.pc ≠ Config.kbsrAddr ∧
      exec (decodeWord (s.mem.read s.pc)) (s.jumpTo (s.pc + 1#16)) = .next t) ∨
    (s.run = .running ∧ s.pc = Config.kbsrAddr ∧ ¬ s.noInput ∧ ∃ u, poll s = some u ∧ PolledTo s u ∧
      (t = u.jumpTo (u.pc + 1#16) ∨
        t = raiseUnsupportedOpcode 0x8#4 0x8000#16 (u.jumpTo (u.pc + 1#16)))) ∨
    (s.run = .running ∧ s.pc = Config.kbsrAddr ∧ s.noInput ∧ t = s) ∨
    (s.run = .inWait ∧ inSecondStep s = .next t) := by
  rcases hr : s.run with _ | _ | _ | c <;> simp only [step, hr] at h
  · unfold stepRunning at h
    rcases fetch_cases s with ⟨hp, e⟩ | ⟨hp, hn, u, hu, hw, e⟩ | ⟨hp, hn, e⟩ <;> rw [e] at h
    · exact .inl ⟨rfl, hp, h⟩
    · refine .inr (.inl ⟨rfl, hp, hn, u, hu, hw, ?_⟩)
      simp only at h
      rcases hw.kbsr with hk | hk <;> rw [hk] at h
      · rw [exec_ready] at h
        cases h
        exact .inr rfl
      · rw [exec_zero] at h
        cases h
        exact .inl rfl
    · cases h
      exact .inr (.inr (.inl ⟨rfl, hp, hn, rfl⟩))
  · exact .inr (.inr (.inr ⟨rfl, h⟩))
  · cases h
  · cases h

/-- Everything the second step of IN can have done (R100). -/
theorem inSecondStep_cases {s t : State} (h : inSecondStep s = .next t) :
    (∃ b rest, s.inQ = b :: rest ∧
      t = { receiveByte b (outByte b { s with inQ := rest }) with run := .running }) ∨
    (s.inQ = [] ∧ s.inEnd = true ∧ t = raiseFault (.inputExhausted 0x23#8 (instrAddr s)) s) ∨
    (s.noInput ∧ t = s) := by
  unfold inSecondStep at h
  rcases inByte_cases s with ⟨b, r, q, e⟩ | ⟨q, he, e⟩ | ⟨hn, e⟩ <;> rw [e] at h <;> cases h
  · exact .inl ⟨b, r, q, rfl⟩
  · exact .inr (.inl ⟨q, he, rfl⟩)
  · exact .inr (.inr ⟨hn, rfl⟩)

/-- Everything GETC can have done (R96). -/
theorem execTrapGetc_cases {ign : BitVec 4} {s t : State} (h : execTrapGetc ign s = .next t) :
    (∃ b rest, s.inQ = b :: rest ∧ t = receiveByte b { trapEntry s with inQ := rest }) ∨
    (s.inQ = [] ∧ s.inEnd = true ∧
      t = raiseFault (.inputExhausted 0x20#8 (instrAddr s)) (trapEntry s)) ∨
    (s.noInput ∧ t = holdStep s) := by
  unfold execTrapGetc at h
  rcases inByte_cases (trapEntry s) with ⟨b, r, q, e⟩ | ⟨q, he, e⟩ | ⟨hn, e⟩ <;> rw [e] at h <;> cases h
  · exact .inl ⟨b, r, by simpa using q, rfl⟩
  · exact .inr (.inl ⟨by simpa using q, by simpa using he, rfl⟩)
  · exact .inr (.inr ⟨⟨by simpa using hn.1, by simpa using hn.2⟩, rfl⟩)

/-- What a host move is (R46). -/
theorem ConsoleMove.apply_cases {m : ConsoleMove} {s t : State} (h : m.apply s = some t) :
    s.inEnd = false ∧ ((∃ b, m = .deliver b ∧ t = { s with inQ := s.inQ ++ [b] }) ∨
      (m = .close ∧ t = { s with inEnd := true })) := by
  unfold ConsoleMove.apply at h
  split at h
  · cases h
  · rename_i he
    refine ⟨by simpa using he, ?_⟩
    cases m <;> cases h
    · exact .inl ⟨_, rfl, rfl⟩
    · exact .inr ⟨rfl, rfl⟩

end Sys2Proof.Machine
end

