-- ==== Sys2Proof/Tests/Slice0.lean ====
section
/-! SUPPORT. The model's own tests. Expected values are those of spec/95_test_vectors.md (its vector is
named in each comment) or of the encoding table R57. The `meets` theorems show, for each obligation with
hypotheses, a state and operands that meet them, clause by clause. -/

namespace Sys2Proof.Machine.Tests

/-! ## Helpers -/

/-- The vectors' default start state with the word `w` at PC (95_test_vectors.md, its opening). -/
def start (w : Word) : State := memWrite 0x3000#16 w State.reset

/-- The same with the word at another address. -/
def startAt (pc w : Word) : State := memWrite pc w (State.reset.jumpTo pc)

def withRegs (l : List (Reg × Word)) (s : State) : State := l.foldl (fun s p => s.writeReg p.1 p.2) s

def withMem (l : List (Word × Word)) (s : State) : State := l.foldl (fun s p => memWrite p.1 p.2 s) s

/-- The outcome is a next state that passes the check. -/
def ends (o : Host.Outcome State Fault Refusal) (check : State → Bool) : Bool :=
  match o with
  | .next t => check t
  | .fault _ => false
  | .refused _ => false

/-! ## WellFormed: the one check, and an ill-formed term for it -/

theorem test_wf_refuses_trapOther_getc : (Instr.trapOther 0 0x20#8).wf = false := by decide
theorem test_wf_refuses_trapOther_halt : (Instr.trapOther 0xF#4 0x25#8).wf = false := by decide
theorem test_wf_admits_neighbours :
    (Instr.trapOther 0 0x1F#8).wf = true ∧ (Instr.trapOther 0 0x26#8).wf = true := by decide

/-! ## Decoding: words written out from R57 and R66 -/

theorem test_decode_operate :
    decodeWord 0b0001_011_101_0_00_110#16 = .add 3 5 6 0 ∧
    decodeWord 0b0001_011_101_1_10001#16 = .addi 3 5 0b10001#5 ∧
    decodeWord 0b0101_001_010_0_11_100#16 = .and 1 2 4 0b11#2 ∧
    decodeWord 0b0101_111_000_1_01111#16 = .andi 7 0 0b01111#5 ∧
    decodeWord 0b1001_001_100_111111#16 = .not 1 4 0b111111#6 := by decide

theorem test_decode_control :
    decodeWord 0b0000_1_0_1_100000001#16 = .br true false true 0b100000001#9 ∧
    decodeWord 0b1100_000_111_000000#16 = .jmp 7 0 0 ∧
    decodeWord 0b1100_101_011_110001#16 = .jmp 3 0b101#3 0b110001#6 ∧
    decodeWord 0b0100_1_10000000001#16 = .jsr 0b10000000001#11 ∧
    decodeWord 0b0100_0_10_011_000001#16 = .jsrr 3 0b10#2 1 := by decide

theorem test_decode_load :
    decodeWord 0b0010_101_100000001#16 = .ld 5 0b100000001#9 ∧
    decodeWord 0b1010_110_011111110#16 = .ldi 6 0b011111110#9 ∧
    decodeWord 0b0110_010_011_100001#16 = .ldr 2 3 0b100001#6 ∧
    decodeWord 0b1110_001_111111111#16 = .lea 1 0b111111111#9 := by decide

theorem test_decode_store :
    decodeWord 0b0011_100_000000101#16 = .st 4 5 ∧
    decodeWord 0b1011_011_100000000#16 = .sti 3 0b100000000#9 ∧
    decodeWord 0b0111_101_110_100000#16 = .str 5 6 0b100000#6 := by decide

theorem test_decode_trap :
    decodeWord 0b1111_0000_00100000#16 = .trapGetc 0 ∧
    decodeWord 0b1111_0000_00100001#16 = .trapOut 0 ∧
    decodeWord 0b1111_0000_00100010#16 = .trapPuts 0 ∧
    decodeWord 0b1111_0000_00100011#16 = .trapIn 0 ∧
    decodeWord 0b1111_0000_00100100#16 = .trapPutsp 0 ∧
    decodeWord 0b1111_1111_00100101#16 = .trapHalt 0xF#4 ∧
    decodeWord 0b1111_0000_00011111#16 = .trapOther 0 0x1F#8 ∧
    decodeWord 0b1111_0000_00100110#16 = .trapOther 0 0x26#8 := by decide

theorem test_decode_unsupported :
    decodeWord 0b1000_000000000000#16 = .rti 0 ∧ decodeWord 0b1101_000100100011#16 = .res 0x123#12 := by
  decide

/-- An image's bytes: high byte first (R37); a lone byte is refused by name. -/
theorem test_decode_bytes :
    decodeTableWord 16 0x1042 = some (.add 0 1 2 0) ∧ bytesOfWord 0x1042#16 = [0x10#8, 0x42#8] := by decide
theorem test_decode_truncated : decode [0x10#8] = .error .truncatedWord := rfl

/-! ## Sign extension (vectors S1 to S11) -/

theorem test_sext :
    sext 0x1F#5 = 0xFFFF#16 ∧ sext 0x0F#5 = 0x000F#16 ∧ sext 0x10#5 = 0xFFF0#16 ∧
    sext 0x20#6 = 0xFFE0#16 ∧ sext 0x100#9 = 0xFF00#16 ∧ sext 0x0FF#9 = 0x00FF#16 ∧
    sext 0x400#11 = 0xFC00#16 ∧ sext 0x3FF#11 = 0x03FF#16 := by decide

/-! ## Operate -/

/-- A3: DR = SR1 = SR2, and the sum turns negative. -/
theorem test_add_doubles :
    ends (step (withRegs [(1, 0x4000)] (start 0x1241))) (fun t => t.readReg 1 == 0x8000 && t.cond == 4) = true := by
  decide
/-- A6: bits 4:3 are ignored. -/
theorem test_add_ignored_bits :
    ends (step (withRegs [(0, 1), (1, 2)] (start 0x1019))) (fun t => t.readReg 0 == 3 && t.cond == 1) = true := by
  decide
/-- A2: the sum wraps to zero. -/
theorem test_addi_wraps :
    ends (step (withRegs [(3, 0xFFFF)] (start 0x16E1))) (fun t => t.readReg 3 == 0 && t.cond == 2) = true := by
  decide
/-- W1: imm5 = -1. -/
theorem test_addi_negative :
    ends (step (withRegs [(1, 5)] (start 0x107F))) (fun t => t.readReg 0 == 4 && t.cond == 1) = true := by
  decide
/-- N5. -/
theorem test_and :
    ends (step (withRegs [(1, 0xF0F0), (2, 0x3C3C)] (start 0x5042)))
      (fun t => t.readReg 0 == 0x3030 && t.cond == 1) = true := by decide
/-- N3: imm5 is sign-extended before the AND. -/
theorem test_andi_sext :
    ends (step (withRegs [(1, 0x1234)] (start 0x5070))) (fun t => t.readReg 0 == 0x1230 && t.cond == 1) = true := by
  decide
/-- W3: the flag follows the destination. -/
theorem test_not :
    ends (step (withRegs [(1, 0x00FF)] (start 0x927F))) (fun t => t.readReg 1 == 0xFF00 && t.cond == 4) = true := by
  decide

/-! ## Control -/

/-- W5: COND = N, BRn #5 taken. -/
theorem test_br_taken :
    ends (step { start 0x0805 with cond := 4 }) (fun t => t.pc == 0x3006 && t.cond == 4) = true := by decide
/-- W5: COND = N, BRzp #5 not taken. -/
theorem test_br_not_taken :
    ends (step { start 0x0605 with cond := 4 }) (fun t => t.pc == 0x3001) = true := by decide
/-- J1. -/
theorem test_jmp : ends (step (withRegs [(2, 0x4000)] (start 0xC080))) (fun t => t.pc == 0x4000) = true := by decide
/-- J4: a negative offset11. -/
theorem test_jsr : ends (step (start 0x4C00)) (fun t => t.pc == 0x2C01 && t.readReg 7 == 0x3001) = true := by decide
/-- J5. -/
theorem test_jsrr :
    ends (step (withRegs [(3, 0x5000)] (start 0x40C0))) (fun t => t.pc == 0x5000 && t.readReg 7 == 0x3001) = true := by
  decide
/-- J6: R7 is written before it is read. -/
theorem test_jsrr_r7 :
    ends (step (withRegs [(7, 0x5000)] (start 0x41C0))) (fun t => t.pc == 0x3001 && t.readReg 7 == 0x3001) = true := by
  decide

/-! ## Loads -/

/-- L2: the address wraps. -/
theorem test_ld_wraps :
    ends (step (withMem [(0x00F0, 0x8000)] (startAt 0xFFF0 0x20FF)))
      (fun t => t.readReg 0 == 0x8000 && t.cond == 4 && t.pc == 0xFFF1) = true := by decide
/-- L4: a read of KBSR polls. -/
theorem test_ld_polls :
    ends (step { startAt 0xFDFF 0x2000 with inQ := [0x41] })
      (fun t => t.readReg 0 == 0x8000 && t.mem.read 0xFE00 == 0x8000 && t.mem.read 0xFE02 == 0x41 && t.inQ == []) =
      true := by decide
/-- L3. -/
theorem test_ldi :
    ends (step (withMem [(0x3002, 0x4000), (0x4000, 0xBEEF)] (start 0xA201)))
      (fun t => t.readReg 1 == 0xBEEF && t.cond == 4) = true := by decide
/-- L8: the second read polls. -/
theorem test_ldi_polls :
    ends (step { withMem [(0x3002, 0xFE00)] (start 0xA001) with inQ := [0x7A] })
      (fun t => t.readReg 0 == 0x8000 && t.mem.read 0xFE02 == 0x7A && t.cond == 4) = true := by decide
/-- L10. -/
theorem test_ldr :
    ends (step (withMem [(0x4000, 7)] (withRegs [(3, 0x4001)] (start 0x64FF))))
      (fun t => t.readReg 2 == 7 && t.cond == 1) = true := by decide
/-- L11: the address wraps. -/
theorem test_ldr_wraps :
    ends (step (withMem [(0xFFFF, 0x1111)] (start 0x607F))) (fun t => t.readReg 0 == 0x1111) = true := by decide
/-- L12. -/
theorem test_lea : ends (step (start 0xE1FF)) (fun t => t.readReg 0 == 0x3000 && t.cond == 1) = true := by decide
/-- L14: flags and the wrap of PC. -/
theorem test_lea_zero :
    ends (step (startAt 0xFFFF 0xE000)) (fun t => t.readReg 0 == 0 && t.cond == 2 && t.pc == 0) = true := by decide

/-! ## Stores -/

/-- M1. -/
theorem test_st :
    ends (step (withRegs [(4, 0x1234)] (start 0x3805))) (fun t => t.mem.read 0x3006 == 0x1234 && t.cond == 2) =
      true := by decide
/-- M3. -/
theorem test_sti :
    ends (step (withMem [(0x3002, 0x4000)] (withRegs [(0, 0x55)] (start 0xB001))))
      (fun t => t.mem.read 0x4000 == 0x55 && t.mem.read 0x3002 == 0x4000) = true := by decide
/-- M4: a store to KBSR does not poll. -/
theorem test_sti_kbsr :
    ends (step { withMem [(0x3002, 0xFE00)] (withRegs [(0, 1)] (start 0xB001)) with inQ := [0x41] })
      (fun t => t.mem.read 0xFE00 == 1 && t.inQ == [0x41]) = true := by decide
/-- M6: SR = BaseR, and the address wraps. -/
theorem test_str :
    ends (step (withRegs [(5, 0x0010)] (start 0x7B60))) (fun t => t.mem.read 0xFFF0 == 0x0010) = true := by decide

/-! ## Traps -/

/-- X1. -/
theorem test_getc :
    ends (step { start 0xF020 with inQ := [0x41] })
      (fun t => t.readReg 0 == 0x41 && t.inQ == [] && t.out == [] && t.cond == 2) = true := by decide
/-- X3. -/
theorem test_getc_end :
    ends (step { start 0xF020 with inEnd := true })
      (fun t => t.run == .faulted (.inputExhausted 0x20 0x3000) && t.pc == 0x3001) = true := by decide
/-- X6. -/
theorem test_out :
    ends (step (withRegs [(0, 0x1248)] (start 0xF021))) (fun t => t.out == [.byte 0x48]) = true := by decide
/-- X7. -/
theorem test_puts :
    ends (step (withMem [(0x4000, 0x48), (0x4001, 0x69)] (withRegs [(0, 0x4000)] (start 0xF022))))
      (fun t => t.out == [.byte 0x48, .byte 0x69, .flushMark] && t.readReg 0 == 0x4000) = true := by decide
/-- X10: the scan reaches 0xFE00. -/
theorem test_puts_device :
    ends (step (withMem [(0xFDFF, 0x41)] (withRegs [(0, 0xFDFF)] (start 0xF022))))
      (fun t => t.out == [.byte 0x41] && t.run == .faulted (.stringReadOfDevice 0xFE00 0x3000)) = true := by decide
/-- X12, first step. -/
theorem test_in_prompts :
    ends (step { start 0xF023 with params := { Config.defaultParams with inPrompt := [0x3E] } })
      (fun t => t.run == .inWait && t.out == [.byte 0x3E] && t.pc == 0x3001) = true := by decide
/-- X11, second step. -/
theorem test_in_echoes :
    ends (step { startAt 0x3001 0 with run := .inWait, inQ := [0x7A] })
      (fun t => t.out == [.byte 0x7A] && t.readReg 0 == 0x7A && t.run == .running && t.pc == 0x3001) = true := by
  decide
/-- X14. -/
theorem test_putsp :
    ends (step (withMem [(0x4000, 0x6948), (0x4001, 0x21), (0x4002, 0x3F)] (withRegs [(0, 0x4000)] (start 0xF024))))
      (fun t => t.out == [.byte 0x48, .byte 0x69, .byte 0x21, .flushMark]) = true := by decide
/-- X15: the other reading of a zero high byte. -/
theorem test_putsp_goes_on :
    ends (step { withMem [(0x4000, 0x6948), (0x4001, 0x21), (0x4002, 0x3F)] (withRegs [(0, 0x4000)] (start 0xF024))
        with params := { Config.defaultParams with putspZeroHighEnds := false } })
      (fun t => t.out == [.byte 0x48, .byte 0x69, .byte 0x21, .byte 0x3F, .flushMark]) = true := by decide
/-- X18: HALT with TRAP_WRITES_R7. -/
theorem test_halt :
    ends (step { start 0xF025 with params := { Config.defaultParams with trapWritesR7 := true } })
      (fun t => t.run == .halted && t.out == [.flushMark] && t.readReg 7 == 0x3001 && exitCode t == some 1) = true := by
  decide
/-- X19. -/
theorem test_trap_other :
    ends (step (start 0xF026)) (fun t => t.run == .faulted (.unsupportedTrap 0x26 0xF026 0x3000) && t.pc == 0x3001) =
      true := by decide

/-! ## Unsupported opcodes, the fetch, a hold -/

/-- U1. -/
theorem test_rti :
    ends (step (start 0x8000)) (fun t => t.run == .faulted (.unsupportedOpcode 8 0x8000 0x3000) && t.pc == 0x3001) =
      true := by decide
/-- U2. -/
theorem test_res :
    ends (step (start 0xD123)) (fun t => t.run == .faulted (.unsupportedOpcode 0xD 0xD123 0x3000)) = true := by decide
/-- U3: a fetch at KBSR. -/
theorem test_fetch_kbsr :
    ends (step { startAt 0xFE00 0 with inQ := [0x41] })
      (fun t => t.run == .faulted (.unsupportedOpcode 8 0x8000 0xFE00) && t.mem.read 0xFE02 == 0x41 && t.pc == 0xFE01) =
      true := by decide
/-- U5: PC wraps. -/
theorem test_fetch_wraps : ends (step (startAt 0xFFFF 0)) (fun t => t.pc == 0) = true := by decide
/-- L7 and X4: holds change nothing. -/
theorem test_holds :
    ends (step (startAt 0xFDFF 0x2000)) (fun t => t == startAt 0xFDFF 0x2000) = true ∧
    ends (step (start 0xF020)) (fun t => t == start 0xF020) = true := by decide

/-! ## Launch -/

/-- W6. -/
theorem test_launch :
    ends (State.launch Config.defaultParams State.reset.regs [] false [0x30, 0x00, 0x10, 0x01])
      (fun t => t.mem == { cells := [(0x3000, 0x1001)] } && t.pc == 0x3000 && t.cond == 2) = true := by decide
/-- `State.reset` is the launch of the image that holds only the origin 0x3000 (log 3). -/
theorem test_reset_is_a_launch :
    State.launch Config.defaultParams (Vector.replicate 8 0#16) [] false [0x30, 0x00] = .next State.reset := rfl
theorem test_reset_memory_is_canonical : State.reset.mem.wf := Memory.wf_empty

/-! ## The obligations' hypotheses can be met -/

theorem meets_DecodeOfEncode : (Instr.trapOther 0xF#4 0xFF#8).wf = true := by decide

/-- Every mask of R61, with words that do differ in an ignored bit. -/
theorem meets_IgnoredBits :
    (0x1000#16 &&& 0xFFE7#16 = 0x1018#16 &&& 0xFFE7#16 ∧ opcodeOf 0x1000#16 = 1#4 ∧ (0x1000#16).getLsbD 5 = false) ∧
    (0x5000#16 &&& 0xFFE7#16 = 0x5018#16 &&& 0xFFE7#16 ∧ opcodeOf 0x5000#16 = 5#4 ∧ (0x5000#16).getLsbD 5 = false) ∧
    (0x9000#16 &&& 0xFFC0#16 = 0x903F#16 &&& 0xFFC0#16 ∧ opcodeOf 0x9000#16 = 9#4) ∧
    (0xC000#16 &&& 0xF1C0#16 = 0xCE3F#16 &&& 0xF1C0#16 ∧ opcodeOf 0xC000#16 = 12#4) ∧
    (0x4000#16 &&& 0xF9C0#16 = 0x463F#16 &&& 0xF9C0#16 ∧ opcodeOf 0x4000#16 = 4#4 ∧ (0x4000#16).getLsbD 11 = false) ∧
    (0xF025#16 &&& 0xF0FF#16 = 0xFF25#16 &&& 0xF0FF#16 ∧ opcodeOf 0xF025#16 = 15#4 ∧
      isServiceVector (lowByte 0xF025#16) = true) := by decide

/-- Widths 1 and 16, with the sign bit set. -/
theorem meets_SignExtension :
    (1 ≤ 1 ∧ 1 ≤ 16 ∧ (1#1).getLsbD (1 - 1) = true) ∧
    (1 ≤ 16 ∧ 16 ≤ 16 ∧ (0x8000#16).getLsbD (16 - 1) = true) := by decide

theorem meets_CanonicalMemories :
    (start 0x1241#16).mem.wf ∧ (memWrite 0x3000#16 0x1241#16 (start 7#16)).mem.wf ∧
      ∀ a, (start 0x1241#16).mem.read a = (memWrite 0x3000#16 0x1241#16 (start 7#16)).mem.read a := by
  refine ⟨Memory.wf_write Memory.wf_empty _ _, Memory.wf_write (Memory.wf_write Memory.wf_empty _ _) _ _, fun a => ?_⟩
  simp only [start, memWrite_mem, Memory.read_write]
  split <;> rfl

/-- The two neighbours of KBSR are read plainly. -/
theorem meets_ReadBesideKbsr :
    0xFDFF#16 ≠ 0xFE00#16 ∧ 0xFE01#16 ≠ 0xFE00#16 ∧ 0xFE02#16 ≠ 0xFE00#16 := by decide

/-- A zero byte at hand, and no input. -/
theorem meets_ReadOfKbsr : ¬ ({ State.reset with inQ := [0x00#8] } : State).noInput ∧ State.reset.noInput := by
  decide

/-- BR taken and not taken; all of the mask with one flag; none of the mask. -/
theorem meets_Branch :
    ((true && State.reset.cond.getLsbD 2) || (true && State.reset.cond.getLsbD 1) ||
      (true && State.reset.cond.getLsbD 0)) = true ∧
    ((false && State.reset.cond.getLsbD 2) || (false && State.reset.cond.getLsbD 1) ||
      (false && State.reset.cond.getLsbD 0)) = false ∧ OneFlag State.reset.cond := by decide

/-- LdLoadsTheWord, LdiLoadsThroughThePointer, StiStoresThroughThePointer: an address beside KBSR, and KBSR
itself with input at hand. -/
theorem meets_PcRelativeReads :
    (State.reset.pc + sext 0x0FF#9 ≠ 0xFE00#16 ∧
      State.reset.mem.read (State.reset.pc + sext 0x0FF#9) ≠ 0xFE00#16) ∧
    ((0xFE01#16 : Word) + sext 0x1FF#9 = 0xFE00#16 ∧
      ¬ ({ startAt 0xFE01#16 0 with inQ := [0x41#8] } : State).noInput) := by decide

/-- LDI whose pointer is at a plain address and points at KBSR. -/
theorem meets_LdiThroughKbsr :
    let s : State := { withMem [(0x3002#16, 0xFE00#16)] (start 0xA001#16) with inQ := [0x7A#8], pc := 0x3001#16 }
    s.pc + sext 1#9 ≠ 0xFE00#16 ∧ s.mem.read (s.pc + sext 1#9) = 0xFE00#16 ∧ ¬ s.noInput := by decide

theorem meets_LdrAddresses :
    let s : State := { withRegs [(3#3, 0xFE01#16)] State.reset with inQ := [0x41#8] }
    (s.readReg 3#3 + sext 0#6 ≠ 0xFE00#16) ∧ (s.readReg 3#3 + sext 0x3F#6 = 0xFE00#16 ∧ ¬ s.noInput) := by decide

theorem meets_StoredWordIsFetched :
    let s := withRegs [(0#3, 0xF025#16)] (start 0x3000#16)
    s.run = .running ∧ s.pc ≠ 0xFE00#16 ∧ s.pc + 1#16 ≠ 0xFE00#16 ∧ decodeWord (s.mem.read s.pc) = .st 0#3 0 := by
  decide

/-- GETC with a byte, and at the end of the input. -/
theorem meets_Getc :
    ({ State.reset with inQ := [0x00#8] } : State).inQ = 0x00#8 :: [] ∧
    (({ State.reset with inEnd := true } : State).inQ = [] ∧ ({ State.reset with inEnd := true } : State).inEnd = true) :=
  ⟨rfl, rfl, rfl⟩

/-- PUTS and PUTSP: a string of one word that ends at a zero word; one that reaches 0xFE00. -/
theorem meets_Puts :
    let s := withMem [(0x4000#16, 0x6948#16)] (withRegs [(0#3, 0x4000#16)] State.reset)
    let d := withMem [(0xFDFF#16, 0x6948#16)] (withRegs [(0#3, 0xFDFF#16)] State.reset)
    (NonzeroRun s.mem (s.readReg 0#3) 1 ∧ s.readReg 0#3 + BitVec.ofNat 16 1 ≠ 0xFE00#16 ∧
      wordAt s.mem (s.readReg 0#3) 1 = 0x0000#16) ∧
    (NonzeroRun d.mem (d.readReg 0#3) 1 ∧ d.readReg 0#3 + BitVec.ofNat 16 1 = 0xFE00#16) := by
  unfold NonzeroRun
  decide

/-- PUTSP: the same two ends under its second hypothesis, and an end at a zero high byte. -/
theorem meets_Putsp :
    let s := withMem [(0x4000#16, 0x6948#16)] (withRegs [(0#3, 0x4000#16)] State.reset)
    let z := withMem [(0x4000#16, 0x6948#16), (0x4001#16, 0x0021#16)] (withRegs [(0#3, 0x4000#16)] State.reset)
    (s.params.putspZeroHighEnds = true → ∀ k < 1, highByte (wordAt s.mem (s.readReg 0#3) k) ≠ 0x00#8) ∧
    (NonzeroRun z.mem (z.readReg 0#3) 1 ∧
      (z.params.putspZeroHighEnds = true → ∀ k < 1, highByte (wordAt z.mem (z.readReg 0#3) k) ≠ 0x00#8) ∧
      z.readReg 0#3 + BitVec.ofNat 16 1 ≠ 0xFE00#16 ∧ wordAt z.mem (z.readReg 0#3) 1 ≠ 0x0000#16 ∧
      z.params.putspZeroHighEnds = true ∧ highByte (wordAt z.mem (z.readReg 0#3) 1) = 0x00#8) := by
  unfold NonzeroRun
  decide

/-- EveryStringScanEnds: the least fuel it speaks of, and more. -/
theorem meets_EveryStringScanEnds : Config.memWords ≤ 65536 ∧ Config.memWords ≤ 65537 := by decide

/-- The second step of IN with a byte, and at the end of the input. -/
theorem meets_InWait :
    let s : State := { State.reset with run := .inWait, inQ := [0x7A#8] }
    let e : State := { State.reset with run := .inWait, inEnd := true }
    (s.run = .inWait ∧ s.inQ = 0x7A#8 :: []) ∧ (e.run = .inWait ∧ e.inQ = [] ∧ e.inEnd = true) :=
  ⟨⟨rfl, rfl⟩, rfl, rfl, rfl⟩

/-- OtherTrapVectorsFault: both ranges at their ends. -/
theorem meets_OtherTrapVectors :
    (opcodeOf 0xF01F#16 = 0xF#4 ∧ lowByte 0xF01F#16 < 0x20#8) ∧
    (opcodeOf 0xF026#16 = 0xF#4 ∧ 0x25#8 < lowByte 0xF026#16) := by decide

/-- RtiFaults, ResFaults. -/
theorem meets_UnsupportedOpcodes : opcodeOf 0x8FFF#16 = 0x8#4 ∧ opcodeOf 0xD000#16 = 0xD#4 := by decide

theorem meets_StepRuns :
    let s := start 0x1241#16
    s.run = .running ∧ s.pc ≠ 0xFE00#16 ∧ (Instr.add 1#3 1#3 1#3 0).wf = true ∧
      decodeWord (s.mem.read s.pc) = .add 1#3 1#3 1#3 0 := by decide

theorem meets_FetchFromKbsr :
    let s : State := { startAt 0xFE00#16 0 with inQ := [0x41#8] }
    s.run = .running ∧ s.pc = 0xFE00#16 ∧ ¬ s.noInput := by decide

theorem meets_FinalStates :
    ({ State.reset with run := .halted } : State).run = .halted ∧
    ({ State.reset with run := .faulted (.inputExhausted 0x20#8 0x3000#16) } : State).run =
      .faulted (.inputExhausted 0x20#8 0x3000#16) := ⟨rfl, rfl⟩

theorem meets_RunningCore : State.reset.run = .running ∧ ({ State.reset with run := .inWait } : State).run = .inWait :=
  ⟨rfl, rfl⟩

theorem meets_ExitCodes : State.reset.params.wf := by decide

/-- A running step that ends in a fault. -/
theorem meets_FaultsRecord :
    ∃ t, (start 0x8000#16).run = .running ∧ step (start 0x8000#16) = .next t ∧
      t.run = .faulted (.unsupportedOpcode 0x8#4 0x8000#16 0x3000#16) := ⟨_, rfl, rfl, rfl⟩

/-- HALT, and IN, from words fetched from storage. -/
theorem meets_OnlyHaltHalts :
    (∃ t, (start 0xF025#16).run = .running ∧ (start 0xF025#16).pc ≠ 0xFE00#16 ∧
      step (start 0xF025#16) = .next t ∧ t.run = .halted) ∧
    (∃ t, (start 0xF023#16).run = .running ∧ (start 0xF023#16).pc ≠ 0xFE00#16 ∧
      step (start 0xF023#16) = .next t ∧ t.run = .inWait) :=
  ⟨⟨_, rfl, by decide, rfl, rfl⟩, _, rfl, by decide, rfl, rfl⟩

/-- Each way to hold: a fetch at KBSR, an instruction that reads input, the second step of IN. -/
theorem meets_Holding :
    (startAt 0xFE00#16 0).holds ∧ (start 0xF020#16).holds ∧ ({ State.reset with run := .inWait } : State).holds := by
  unfold State.holds
  decide

theorem meets_InstructionWithoutInput :
    takesInput (.trapGetc 0) State.reset = true ∧ takesInput (.ld 0#3 0x1FF#9) (startAt 0xFE01#16 0) = true ∧
      State.reset.noInput ∧ (startAt 0xFE01#16 0).noInput := by decide

theorem meets_HostMoves :
    (∃ t, (ConsoleMove.deliver 0x41#8).apply State.reset = some t) ∧ ∃ t, ConsoleMove.close.apply State.reset = some t :=
  ⟨⟨_, rfl⟩, _, rfl⟩

/-- A step that reads input and does not hold, and both moves beside it. -/
theorem meets_HostMovesCommute :
    let s : State := { start 0xF020#16 with inQ := [0x41#8] }
    ¬ s.holds ∧ (∃ t, step s = .next t) ∧ (∃ u, (ConsoleMove.deliver 0x42#8).apply s = some u) ∧
      ∃ u, ConsoleMove.close.apply s = some u := by
  refine ⟨?_, ⟨_, rfl⟩, ⟨_, rfl⟩, _, rfl⟩
  unfold State.holds
  decide

theorem meets_OnlyFlagSetters :
    ∃ t, exec (.trapGetc 0) { State.reset with inQ := [0x41#8] } = .next t ∧
      writesCond (.trapGetc 0) { State.reset with inQ := [0x41#8] } = false := ⟨_, rfl, rfl⟩

/-- RegistersOutsideTheWrittenOnesAreKept, MemoryOutsideTheWrittenWordsIsKept. -/
theorem meets_Frames :
    (∃ t, exec (.addi 1#3 1#3 1#5) State.reset = .next t) ∧
    (∃ t, exec (.sti 0#3 1#9) (start 0xB001#16) = .next t) := ⟨⟨_, rfl⟩, _, rfl⟩

/-- StepKeepsTheInvariant, StepsTakeInputInOrderAndOnlyAppendOutput. -/
theorem meets_StepKeepsTheInvariant : ∃ t, State.reset.Inv ∧ step State.reset = .next t :=
  ⟨_, ⟨.inr (.inl rfl), Memory.wf_empty, by decide⟩, rfl⟩

theorem meets_RunsKeepTheInvariant :
    ∃ t, State.reset.Inv ∧
      runEvents [.hostMove (.deliver 0x41#8), .coreStep, .hostMove .close, .coreStep] State.reset = .next t :=
  ⟨_, ⟨.inr (.inl rfl), Memory.wf_empty, by decide⟩, rfl⟩

/-- A full image up to 0xFFFF, and one with no word but the origin. -/
theorem meets_LaunchLoads :
    (0xFFFF#16 : Word).toNat + [0xF025#16].length ≤ 65536 ∧ (0x3000#16 : Word).toNat + ([] : List Word).length ≤ 65536 ∧
      Config.defaultParams.wf := by decide

/-- Both other images R125 does not admit. -/
theorem meets_LaunchRefuses :
    [0x30#8].length % 2 = 1 ∧ 65536 < (0xFFFF#16 : Word).toNat + [0xF025#16, 0xF025#16].length := by decide

end Sys2Proof.Machine.Tests
end

section
/-! SUPPORT. Sign and zero extension as R9 (00_scope.md) writes them. -/

namespace Sys2Proof.Machine

/-- A field whose sign bit is clear is only widened. -/
theorem sext_of_msb_false {n : Nat} {v : BitVec n} (h : v.msb = false) : sext v = v.setWidth 16 :=
  BitVec.signExtend_eq_setWidth_of_msb_false h

/-- A field whose sign bit is set gets ones from bit `n` up; below, `0xFFFF <<< n` is zero. -/
theorem sext_of_msb_true {n : Nat} {v : BitVec n} (h : v.msb = true) :
    sext v = v.setWidth 16 ||| (0xFFFF#16 <<< n) := by
  have hones (j : Nat) (hj : j < 16) : (0xFFFF#16)[j] = true := BitVec.getElem_allOnes j hj
  ext i hi
  by_cases hin : i < n
  · simp [sext, BitVec.getElem_signExtend, hin]
  · simp [sext, BitVec.getElem_signExtend, hin, h, hones]

/-- A byte extended with zeros is the word of the bytes 0 and `b`. -/
theorem zext8_eq_wordOfBytes (b : Byte) : zext8 b = wordOfBytes 0x00#8 b :=
  BitVec.setWidth_eq_append (by decide)

@[simp] theorem lowByte_zext8 (b : Byte) : lowByte (zext8 b) = b := by
  rw [zext8_eq_wordOfBytes, lowByte_wordOfBytes]

@[simp] theorem highByte_zext8 (b : Byte) : highByte (zext8 b) = 0x00#8 := by
  rw [zext8_eq_wordOfBytes, highByte_wordOfBytes]

@[simp] theorem sext_word (v : Word) : sext v = v := BitVec.signExtend_eq v

/-- Settles O6: bit `n - 1` is the sign bit, and each of its two values has its own lemma. -/
theorem signExtensionFillsFromTheSignBit : Obligations.SignExtensionFillsFromTheSignBit := by
  refine ⟨fun n v _ _ => ?_, sext_word, fun b => ⟨lowByte_zext8 b, highByte_zext8 b⟩⟩
  rw [← BitVec.msb_eq_getLsbD_last]
  split
  case isTrue h => exact sext_of_msb_true h
  case isFalse h => exact sext_of_msb_false (Bool.eq_false_of_not_eq_true h)

end Sys2Proof.Machine
end

section
/-! SUPPORT. What one instruction can do to the state, said once for all 25 (40_execution_loop.md R70),
and the rules read off it: COND, the registers, memory's form, the console, the run state. -/

namespace Sys2Proof.Machine

/-! ## Reads -/

/-- `u` is `s` after a `MemRead` that did not hold: `s` itself, or `s` after one poll (R35). -/
abbrev ReadTo (s u : State) : Prop := ∃ a v, memRead a s = some (v, u)

theorem ReadTo.refl (s : State) : ReadTo s s := ⟨0x0000#16, _, memRead_plain (by decide)⟩

theorem ReadTo.of_poll {s u : State} (h : poll s = some u) : ReadTo s u :=
  ⟨Config.kbsrAddr, u.mem.read Config.kbsrAddr, by simp [memRead, h]⟩

/-- The two reads of LDI together poll at most once (R86). -/
theorem ReadTo.of_pointer {a p v : Word} {s t u : State} (hp : memRead a s = some (p, t))
    (hv : memRead p t = some (v, u)) : ReadTo s u := by
  rcases memRead_ptr hp with rfl | ⟨-, hne⟩
  · exact ⟨p, v, hv⟩
  · rw [memRead_plain hne] at hv
    cases hv
    exact ⟨a, p, hp⟩

/-! ## The effect of an instruction -/

/-- The instruction's rule admits the write of R7 that TRAP_WRITES_R7 asks for (R93). -/
abbrev AdmitsTrapR7 (i : Instr) (s : State) : Prop :=
  s.params.trapWritesR7 = true → 7#3 ∈ writtenRegs i s

/-- Everything the handler of an instruction can leave behind. -/
inductive ExecEffect (i : Instr) (s : State) : State → Prop
  /-- The operate instructions, the loads and LEA: DR and its flag, perhaps after a poll. -/
  | result (dr : Reg) (v : Word) {u : State} (hdr : dr ∈ writtenRegs i s) (hcond : writesCond i s = true)
      (hu : ReadTo s u) : ExecEffect i s (writeDest dr v u)
  /-- The stores, STI perhaps after a poll. -/
  | store (a v : Word) {u : State} (hu : ReadTo s u) : ExecEffect i s (memWrite a v u)
  /-- BR, JMP, and every hold: only PC moves. -/
  | jump (target : Word) : ExecEffect i s (s.jumpTo target)
  /-- JSR and JSRR. -/
  | call (target : Word) (h7 : 7#3 ∈ writtenRegs i s) : ExecEffect i s ((saveReturn s).jumpTo target)
  /-- RTI, RES and TRAP_OTHER: a fault before any other effect. -/
  | fault (c : FatalCondition) : ExecEffect i s (raiseFault c s)
  /-- GETC with a byte. -/
  | receive (b : Byte) (rest : List Byte) (hi : ∃ ign, i = .trapGetc ign) (hq : s.inQ = b :: rest) :
      ExecEffect i s (receiveByte b { trapEntry s with inQ := rest })
  /-- GETC at the end of input. -/
  | endOfInput (c : FatalCondition) (h7 : AdmitsTrapR7 i s) : ExecEffect i s (raiseFault c (trapEntry s))
  /-- OUT. -/
  | output (b : Byte) (h7 : AdmitsTrapR7 i s) : ExecEffect i s (outByte b (trapEntry s))
  /-- PUTS and PUTSP. -/
  | print (r : StringScan) (h7 : AdmitsTrapR7 i s) : ExecEffect i s (printScan r (trapEntry s))
  /-- IN, first step. -/
  | wait (hi : ∃ ign, i = .trapIn ign) :
      ExecEffect i s { outBytes s.params.inPrompt (trapEntry s) with run := .inWait }
  /-- HALT. -/
  | halt (hi : ∃ ign, i = .trapHalt ign) : ExecEffect i s (halt (flush (trapEntry s)))

/-- A load whose reads amount to one has the effect of a load, or holds. -/
theorem execEffect_loadFrom {i : Instr} {dr : Reg} {addr : Word} {s t w : State}
    (hdr : dr ∈ writtenRegs i s) (hcond : writesCond i s = true)
    (hread : ∀ v u, memRead addr t = some (v, u) → ReadTo s u) (h : loadFrom dr addr t s = .next w) :
    ExecEffect i s w := by
  rcases loadFrom_cases dr addr t s with ⟨v, u, hm, e⟩ | ⟨-, e⟩ <;> rw [e] at h <;> cases h
  · exact .result dr v hdr hcond (hread v u hm)
  · exact .jump _

/-- Everything an instruction that answers a next state can have done. -/
theorem exec_cases {i : Instr} {s t : State} (h : exec i s = .next t) : ExecEffect i s t := by
  cases i with
  | add | addi | and | andi | not | lea =>
    cases h
    exact .result _ _ (List.mem_singleton.mpr rfl) rfl (.refl s)
  | ld | ldr =>
    exact execEffect_loadFrom (List.mem_singleton.mpr rfl) rfl (fun v u hm => ⟨_, v, hm⟩) h
  | ldi dr off =>
    simp only [exec, execLdi] at h
    split at h
    case h_1 p u hp =>
      exact execEffect_loadFrom (List.mem_singleton.mpr rfl) rfl (fun _ _ hv => .of_pointer hp hv) h
    case h_2 =>
      cases h
      exact .jump _
  | st | str =>
    cases h
    exact .store _ _ (.refl s)
  | sti sr off =>
    simp only [exec, execSti] at h
    split at h <;> cases h
    case h_1 a u hp => exact .store a _ ⟨_, a, hp⟩
    case h_2 => exact .jump _
  | br n z p off =>
    simp only [exec, execBr] at h
    split at h <;> cases h
    · exact .jump _
    · exact .jump s.pc
  | jmp =>
    cases h
    exact .jump _
  | jsr | jsrr =>
    cases h
    exact .call _ (List.mem_singleton.mpr rfl)
  | rti | res | trapOther =>
    cases h
    exact .fault _
  | trapGetc ign =>
    rcases execTrapGetc_cases (ign := ign) h with ⟨b, rest, hq, rfl⟩ | ⟨-, -, rfl⟩ | ⟨-, rfl⟩
    · exact .receive b rest ⟨ign, rfl⟩ hq
    · exact .endOfInput _ fun h7 => by simp [writtenRegs, h7]
    · exact .jump _
  | trapOut =>
    cases h
    exact .output _ fun h7 => by simp [writtenRegs, h7]
  | trapPuts | trapPutsp =>
    cases h
    exact .print _ fun h7 => by simp [writtenRegs, h7]
  | trapIn ign =>
    cases h
    exact .wait ⟨ign, rfl⟩
  | trapHalt ign =>
    cases h
    exact .halt ⟨ign, rfl⟩

/-! ## COND -/

/-- An instruction keeps COND, or is one that writes it and leaves the flag of some word (R18). -/
theorem exec_cond {i : Instr} {s t : State} (h : exec i s = .next t) :
    t.cond = s.cond ∨ (writesCond i s = true ∧ ∃ v, t.cond = condOf v) := by
  cases exec_cases h with
  | result dr v hdr hcond hu => exact .inr ⟨hcond, v, writeDest_cond dr v _⟩
  | store a v hu =>
    obtain ⟨b, x, hm⟩ := hu
    obtain ⟨-, -, hc, -⟩ := memRead_frame hm
    exact .inl hc
  | receive b rest hi hq =>
    obtain ⟨ign, rfl⟩ := hi
    rw [receiveByte_cond]
    split
    case isTrue hp => exact .inr ⟨by simpa [writesCond] using hp, _, rfl⟩
    case isFalse => exact .inl (trapEntry_cond s)
  | print r h7 => exact .inl (by simp)
  | jump | call | fault => exact .inl rfl
  | endOfInput | output | wait | halt => exact .inl (trapEntry_cond s)

/-! ## Memory -/

/-- An instruction keeps the canonical form of memory. -/
theorem exec_mem_wf {i : Instr} {s t : State} (h : exec i s = .next t) (hw : s.mem.wf) : t.mem.wf := by
  have hentry : (trapEntry s).mem.wf := by rwa [trapEntry_mem]
  cases exec_cases h with
  | result dr v hdr hcond hu =>
    obtain ⟨a, x, hm⟩ := hu
    rw [writeDest_mem]
    exact memRead_wf hm hw
  | store a v hu =>
    obtain ⟨b, x, hm⟩ := hu
    exact Memory.wf_write (memRead_wf hm hw) a v
  | receive | print => simpa using hw
  | jump | call | fault => exact hw
  | endOfInput | output | wait | halt => exact hentry

/-! ## The console -/

/-- The console moves forward: at most the head of the input is gone, the output has only grown, the end
mark and the parameters are as before (R23, R24). -/
abbrev ConsoleMovesOn (s t : State) : Prop :=
  (t.inQ = s.inQ ∨ ∃ b, s.inQ = b :: t.inQ) ∧ t.inEnd = s.inEnd ∧ s.out <+: t.out ∧ t.params = s.params

theorem ConsoleMovesOn.refl (s : State) : ConsoleMovesOn s s := ⟨.inl rfl, rfl, List.prefix_rfl, rfl⟩

theorem ReadTo.consoleMovesOn {s u : State} (h : ReadTo s u) : ConsoleMovesOn s u := by
  obtain ⟨a, v, hm⟩ := h
  obtain ⟨-, -, -, ⟨-, hparams⟩, hend, hout, -, -, hq⟩ := memRead_frame hm
  exact ⟨hq, hend, ⟨[], by rw [hout, List.append_nil]⟩, hparams⟩

/-- A string's output comes after what stood there (R98, R101, R95). -/
theorem printScan_appends (r : StringScan) (s : State) : s.out <+: (printScan r s).out := by
  unfold printScan
  split
  · exact ⟨r.bytes.map .byte ++ [.flushMark], by simp⟩
  · exact ⟨r.bytes.map .byte, rfl⟩

theorem exec_consoleMovesOn {i : Instr} {s t : State} (h : exec i s = .next t) : ConsoleMovesOn s t := by
  cases exec_cases h with
  | result dr v hdr hcond hu => exact hu.consoleMovesOn
  | store a v hu => exact hu.consoleMovesOn
  | receive b rest hi hq => exact ⟨.inr ⟨b, by simpa using hq⟩, by simp, by simp, by simp⟩
  | print r h7 => exact ⟨.inl (by simp), by simp, by simpa using printScan_appends r (trapEntry s), by simp⟩
  | jump | call | fault => exact ConsoleMovesOn.refl s
  | endOfInput | output | wait | halt => exact ⟨.inl (by simp), by simp, by simp, by simp⟩

/-! ## The general registers -/

theorem sameRegsBut_trapEntry {i : Instr} {s : State} (h7 : AdmitsTrapR7 i s) :
    SameRegsBut (writtenRegs i s) s (trapEntry s) := by
  intro r hr
  rw [trapEntry_readReg, if_neg]
  rintro ⟨rfl, hp⟩
  exact hr (h7 hp)

/-- GETC writes R0, and R7 by the parameter (R96, R93). -/
theorem sameRegsBut_getc (ign : BitVec 4) (b : Byte) (rest : List Byte) (s : State) :
    SameRegsBut (writtenRegs (.trapGetc ign) s) s (receiveByte b { trapEntry s with inQ := rest }) := by
  intro r hr
  have h0 : r ≠ 0#3 := by
    rintro rfl
    exact hr (by simp only [writtenRegs]; split <;> simp)
  rw [receiveByte_readReg, if_neg h0]
  exact sameRegsBut_trapEntry (i := .trapGetc ign) (fun h7 => by simp [writtenRegs, h7]) r hr

/-! ## The run state -/

theorem printScan_run (r : StringScan) (s : State) :
    (printScan r s).run = s.run ∨ ∃ c, (printScan r s).run = .faulted c := by
  unfold printScan
  split
  · exact .inl rfl
  · exact .inr ⟨_, rfl⟩

/-- An instruction keeps the run state or faults, but HALT enters Halted and IN enters InWait (R22). -/
theorem exec_run {i : Instr} {s t : State} (h : exec i s = .next t) :
    (t.run = s.run ∨ ∃ c, t.run = .faulted c) ∨ (t.run = .halted ∧ ∃ ign, i = .trapHalt ign) ∨
      (t.run = .inWait ∧ ∃ ign, i = .trapIn ign) := by
  cases exec_cases h with
  | result dr v hdr hcond hu | store a v hu =>
    obtain ⟨a, x, hm⟩ := hu
    obtain ⟨-, -, -, ⟨hrun, -⟩, -⟩ := memRead_frame hm
    exact .inl (.inl hrun)
  | print r h7 => exact .inl (by simpa using printScan_run r (trapEntry s))
  | receive b rest hi hq => exact .inl (.inl (by simp))
  | jump | call => exact .inl (.inl rfl)
  | output => exact .inl (.inl (trapEntry_run s))
  | fault c | endOfInput c => exact .inl (.inr ⟨c, rfl⟩)
  | wait hi => exact .inr (.inr ⟨rfl, hi⟩)
  | halt hi => exact .inr (.inl ⟨rfl, hi⟩)

end Sys2Proof.Machine
end

section
/-! SUPPORT. The invariant and the frames of the whole machine (10_state.md R13 to R24). -/

namespace Sys2Proof.Machine

/-! ## The invariant -/

theorem State.Inv.readTo {s u : State} (hs : s.Inv) (h : ReadTo s u) : u.Inv := by
  obtain ⟨hcond, hmem, hparams⟩ := hs
  obtain ⟨a, v, hm⟩ := h
  obtain ⟨-, -, hc, ⟨-, hp⟩, -⟩ := memRead_frame hm
  exact ⟨hc ▸ hcond, memRead_wf hm hmem, hp ▸ hparams⟩

theorem exec_inv {i : Instr} {s t : State} (hs : s.Inv) (h : exec i s = .next t) : t.Inv := by
  obtain ⟨hcond, hmem, hparams⟩ := hs
  obtain ⟨-, -, -, hp⟩ := exec_consoleMovesOn h
  refine ⟨?_, exec_mem_wf h hmem, hp ▸ hparams⟩
  rcases exec_cond h with hc | ⟨-, v, hc⟩ <;> rw [hc]
  · exact hcond
  · exact oneFlag_condOf v

theorem receiveByte_inv {s : State} (hs : s.Inv) (b : Byte) : (receiveByte b s).Inv := by
  obtain ⟨hcond, hmem, hparams⟩ := hs
  refine ⟨?_, by rwa [receiveByte_mem], by rwa [receiveByte_params]⟩
  rw [receiveByte_cond]
  split
  · exact oneFlag_condOf _
  · exact hcond

theorem inSecondStep_inv {s t : State} (hs : s.Inv) (h : inSecondStep s = .next t) : t.Inv := by
  rcases inSecondStep_cases h with ⟨b, rest, -, rfl⟩ | ⟨-, -, rfl⟩ | ⟨-, rfl⟩
  · exact receiveByte_inv (s := outByte b { s with inQ := rest }) hs b
  · exact hs
  · exact hs

/-- Settles O56, by what a step can do: run an instruction, poll at 0xFE00, hold, or end IN. -/
theorem stepKeepsTheInvariant : Obligations.StepKeepsTheInvariant := by
  intro s t hs h
  rcases step_cases h with
    ⟨-, -, hexec⟩ | ⟨-, -, -, u, hpoll, -, ht⟩ | ⟨-, -, -, rfl⟩ | ⟨-, hin⟩
  · exact exec_inv (s := s.jumpTo (s.pc + 1#16)) hs hexec
  · have hu : u.Inv := hs.readTo (.of_poll hpoll)
    rcases ht with rfl | rfl
    · exact hu
    · exact hu
  · exact hs
  · exact inSecondStep_inv hs hin

/-- A host move touches nothing the invariant speaks of (R46). -/
theorem ConsoleMove.apply_inv {m : ConsoleMove} {s t : State} (hs : s.Inv) (h : m.apply s = some t) :
    t.Inv := by
  obtain ⟨-, ⟨b, -, rfl⟩ | ⟨-, rfl⟩⟩ := ConsoleMove.apply_cases h
  · exact hs
  · exact hs

/-- Settles O57, by induction on the events: a core step is O56, a host move keeps the invariant too. -/
theorem runsKeepTheInvariant : Obligations.RunsKeepTheInvariant := by
  intro events
  induction events with
  | nil =>
    intro s t hs h
    cases h
    exact hs
  | cons e rest ih =>
    intro s t hs h
    cases e with
    | coreStep =>
      rw [runEvents] at h
      split at h
      case h_1 u hu => exact ih u t (stepKeepsTheInvariant s u hs hu) h
      case h_2 | h_3 => cases h
    | hostMove m =>
      rw [runEvents] at h
      split at h
      case h_1 u hu => exact ih u t (ConsoleMove.apply_inv hs hu) h
      case h_2 => cases h

/-- Settles O55: COND is Z, no word is listed, and the default FATAL_EXIT_CODE is legal. -/
theorem resetMeetsTheInvariant : Obligations.ResetMeetsTheInvariant :=
  ⟨.inr (.inl rfl), Memory.wf_empty, by decide⟩

/-! ## COND and the registers -/

/-- Settles O11: COND is the flag of the register's word, and no other field is touched. -/
theorem setccFollowsTheRegister : Obligations.SetccFollowsTheRegister := fun r s =>
  ⟨flagsOf_condOf (s.readReg r), fun _ _ => rfl, rfl, fun _ _ => rfl, ⟨rfl, rfl, rfl⟩, rfl, rfl⟩

/-- Settles O51: an instruction that does not keep COND is one that writes it. -/
theorem onlyFlagSettersWriteCond : Obligations.OnlyFlagSettersWriteCond := by
  intro i s t h hno
  rcases exec_cond h with hc | ⟨hyes, -⟩
  · exact hc
  · rw [hno] at hyes
    cases hyes

/-- Settles O52, by what an instruction can do. -/
theorem registersOutsideTheWrittenOnesAreKept : Obligations.RegistersOutsideTheWrittenOnesAreKept := by
  intro i s t h r hr
  cases exec_cases h with
  | result dr v hdr hcond hu =>
    obtain ⟨a, x, hm⟩ := hu
    obtain ⟨hregs, -⟩ := memRead_frame hm
    rw [writeDest_readReg, if_neg (ne_of_mem_of_not_mem hdr hr).symm, hregs]
  | store a v hu =>
    obtain ⟨b, x, hm⟩ := hu
    obtain ⟨hregs, -⟩ := memRead_frame hm
    exact hregs r
  | call target h7 =>
    rw [jumpTo_readReg, saveReturn_readReg, if_neg (ne_of_mem_of_not_mem h7 hr).symm]
  | receive b rest hi hq =>
    obtain ⟨ign, rfl⟩ := hi
    exact sameRegsBut_getc ign b rest s r hr
  | print p h7 => rw [printScan_readReg, sameRegsBut_trapEntry h7 r hr]
  | jump | fault => rfl
  | endOfInput _ h7 | output _ h7 => exact sameRegsBut_trapEntry h7 r hr
  | wait hi | halt hi =>
    obtain ⟨ign, rfl⟩ := hi
    exact sameRegsBut_trapEntry (fun h7 => by simp [writtenRegs, h7]) r hr

/-! ## The console -/

theorem inSecondStep_consoleMovesOn {s t : State} (h : inSecondStep s = .next t) : ConsoleMovesOn s t := by
  rcases inSecondStep_cases h with ⟨b, rest, hq, rfl⟩ | ⟨-, -, rfl⟩ | ⟨-, rfl⟩
  · exact ⟨.inr ⟨b, by simpa using hq⟩, by simp, by simp, by simp⟩
  · exact ConsoleMovesOn.refl s
  · exact ConsoleMovesOn.refl _

/-- Settles O54, by what a step can do. -/
theorem stepsTakeInputInOrderAndOnlyAppendOutput :
    Obligations.StepsTakeInputInOrderAndOnlyAppendOutput := by
  intro s t h
  rcases step_cases h with
    ⟨-, -, hexec⟩ | ⟨-, -, -, u, hpoll, -, ht⟩ | ⟨-, -, -, rfl⟩ | ⟨-, hin⟩
  · exact exec_consoleMovesOn (s := s.jumpTo (s.pc + 1#16)) hexec
  · have hu : ConsoleMovesOn s u := (ReadTo.of_poll hpoll).consoleMovesOn
    rcases ht with rfl | rfl
    · exact hu
    · exact hu
  · exact ConsoleMovesOn.refl _
  · exact inSecondStep_consoleMovesOn hin

/-! ## The run state -/

theorem exec_halted_iff {i : Instr} {s t : State} (hrun : s.run = .running) (h : exec i s = .next t) :
    t.run = .halted ↔ ∃ ign, i = .trapHalt ign := by
  constructor
  · intro ht
    rcases exec_run h with (hs | ⟨c, hc⟩) | ⟨-, hi⟩ | ⟨hw, -⟩
    · simp [hs, hrun] at ht
    · simp [hc] at ht
    · exact hi
    · simp [hw] at ht
  · rintro ⟨ign, rfl⟩
    cases h
    rfl

theorem exec_inWait_iff {i : Instr} {s t : State} (hrun : s.run = .running) (h : exec i s = .next t) :
    t.run = .inWait ↔ ∃ ign, i = .trapIn ign := by
  constructor
  · intro ht
    rcases exec_run h with (hs | ⟨c, hc⟩) | ⟨hh, -⟩ | ⟨-, hi⟩
    · simp [hs, hrun] at ht
    · simp [hc] at ht
    · simp [hh] at ht
    · exact hi
  · rintro ⟨ign, rfl⟩
    cases h
    rfl

/-- Settles O46: beside 0xFE00 a running step runs the word at PC. -/
theorem onlyHaltHaltsAndOnlyInWaits : Obligations.OnlyHaltHaltsAndOnlyInWaits := by
  intro s t hrun hpc h
  rcases step_cases h with ⟨-, -, hexec⟩ | ⟨-, hk, -⟩ | ⟨-, hk, -⟩ | ⟨hin, -⟩
  · have hrun' : (s.jumpTo (s.pc + 1#16)).run = .running := hrun
    exact ⟨exec_halted_iff hrun' hexec, exec_inWait_iff hrun' hexec⟩
  · exact absurd hk hpc
  · exact absurd hk hpc
  · rw [hrun] at hin
    cases hin

end Sys2Proof.Machine
end

section
/-! SUPPORT. The memory array, its two accesses and the words an instruction may write (20_memory.md R28
to R40). -/

namespace Sys2Proof.Machine

/-! ## The memory array -/

/-- In canonical form the listed cells are read from the array, so equal reads list the same cells. -/
theorem Memory.cells_subset {m m' : Memory} (hm : m.wf) (hm' : m'.wf) (he : ∀ a, m.read a = m'.read a) :
    m.cells ⊆ m'.cells := by
  intro c hc
  obtain ⟨hrise, hcell⟩ := hm
  refine mem_of_lookup hrise (fun d hd => (hcell d hd).2) (fun d hd => ?_) hc hm'.1
  have hkey : (BitVec.ofNat 16 d.1).toNat = d.1 := Nat.mod_eq_of_lt (hcell d hd).1
  simpa only [Memory.read, hkey] using he (BitVec.ofNat 16 d.1)

/-- Two lists with rising addresses and the same cells are the same list. -/
theorem Rising.eq_of_subset {l l' : List (Nat × Word)} (h : Rising l) (h' : Rising l') (hs : l ⊆ l')
    (hs' : l' ⊆ l) : l = l' := by
  have hperm : l.Perm l' :=
    (List.perm_ext_iff_of_nodup (List.Nodup.of_map _ h.nodup) (List.Nodup.of_map _ h'.nodup)).mpr
      fun _ => ⟨fun hc => hs hc, fun hc => hs' hc⟩
  exact hperm.eq_of_pairwise (fun _ _ _ _ hab hba => absurd hab hba.asymm)
    (List.pairwise_map.mp h) (List.pairwise_map.mp h')

/-- Settles O8: equal reads list the same cells, and rising addresses leave one order for them. -/
theorem canonicalMemoriesWithEqualReadsAreEqual : Obligations.CanonicalMemoriesWithEqualReadsAreEqual := by
  intro m m' hm hm' he
  have hcells : m.cells = m'.cells :=
    Rising.eq_of_subset hm.1 hm'.1 (Memory.cells_subset hm hm' he)
      (Memory.cells_subset hm' hm fun a => (he a).symm)
  exact congrArg Memory.mk hcells

/-! ## MemRead and MemWrite -/

/-- A write of one word keeps every other word (R36). -/
theorem sameMemBut_memWrite (a v : Word) (s : State) : SameMemBut [a] s (memWrite a v s) := by
  intro b hb
  rw [memWrite_mem, Memory.read_write, if_neg (by simpa using hb)]

/-- Settles O7: the array holds the word and keeps the others, and no other field is touched. -/
theorem memWriteStoresOneWord : Obligations.MemWriteStoresOneWord := fun a v s =>
  ⟨by simp, sameMemBut_memWrite a v s, fun _ _ => rfl, rfl, rfl, ⟨rfl, rfl, rfl⟩, rfl, rfl⟩

/-- Settles O9. -/
theorem readBesideKbsrHasNoEffect : Obligations.ReadBesideKbsrHasNoEffect := fun _ _ ha =>
  memRead_plain ha

/-- Settles O10: the input is there or has ended, or the read holds. -/
theorem readOfKbsrPolls : Obligations.ReadOfKbsrPolls := fun _ => ⟨memRead_polled, memRead_hold⟩

/-! ## The pointer instructions -/

/-- LDI loads through the pointer it read, or holds at the pointer read (R86). -/
theorem exec_ldi_cases (dr : Reg) (off : BitVec 9) (s : State) :
    (∃ p t, memRead (pcRelative off s) s = some (p, t) ∧ exec (.ldi dr off) s = loadFrom dr p t s) ∨
    (memRead (pcRelative off s) s = none ∧ exec (.ldi dr off) s = .next (holdStep s)) := by
  simp only [exec, execLdi]
  rcases memRead (pcRelative off s) s with _ | ⟨p, t⟩
  · exact .inr ⟨rfl, rfl⟩
  · exact .inl ⟨p, t, rfl, rfl⟩

/-- STI stores through the pointer it read, or holds at the pointer read (R90). -/
theorem exec_sti_cases (sr : Reg) (off : BitVec 9) (s : State) :
    (∃ p t, memRead (pcRelative off s) s = some (p, t) ∧
      exec (.sti sr off) s = .next (memWrite p (t.readReg sr) t)) ∨
    (memRead (pcRelative off s) s = none ∧ exec (.sti sr off) s = .next (holdStep s)) := by
  simp only [exec, execSti]
  rcases memRead (pcRelative off s) s with _ | ⟨p, t⟩
  · exact .inr ⟨rfl, rfl⟩
  · exact .inl ⟨p, t, rfl, rfl⟩

/-! ## What an instruction writes -/

/-- A read rewrites no word but the keyboard registers, and those at 0xFE00 only (R31, R39). -/
theorem sameMemBut_memRead {a v : Word} {s u : State} (h : memRead a s = some (v, u)) :
    SameMemBut (polledAddrs a) s u := by
  obtain ⟨-, -, -, -, -, -, -, hmem, -⟩ := memRead_frame h
  exact hmem

/-- LDI's second read polls only where the pointer stored in memory is 0xFE00: a pointer read that
polled is never 0xFE00 (R86). -/
theorem sameMemBut_pointerRead {a p v : Word} {s t u : State} (hp : memRead a s = some (p, t))
    (hv : memRead p t = some (v, u)) :
    SameMemBut (polledAddrs a ++ polledAddrs (s.mem.read a)) s u := by
  rcases memRead_cases a s with ⟨-, e⟩ | ⟨rfl, -, w, hw, e⟩ | ⟨-, -, e⟩ <;> rw [e] at hp <;> cases hp
  · exact fun b hb => sameMemBut_memRead hv b fun hb' => hb (List.mem_append_right _ hb')
  · rw [memRead_plain hw.kbsr_ne] at hv
    cases hv
    exact fun b hb => sameMemBut_memRead e b fun hb' => hb (List.mem_append_left _ hb')

/-- A load writes what its reads write, and nothing where it holds. -/
theorem sameMemBut_loadFrom {dr : Reg} {addr : Word} {as : List Word} {s t w : State}
    (hread : ∀ v u, memRead addr t = some (v, u) → SameMemBut as s u)
    (h : loadFrom dr addr t s = .next w) : SameMemBut as s w := by
  rcases loadFrom_cases dr addr t s with ⟨v, u, hm, e⟩ | ⟨-, e⟩ <;> rw [e] at h <;> cases h
  · exact hread v u hm
  · exact fun _ _ => rfl

/-- STI writes at its pointer, and polls only at 0xFE00 (R90). -/
theorem sameMemBut_sti {sr : Reg} {off : BitVec 9} {s t : State} (h : exec (.sti sr off) s = .next t) :
    SameMemBut (writtenAddrs (.sti sr off) s) s t := by
  rcases exec_sti_cases sr off s with ⟨p, u, hm, e⟩ | ⟨-, e⟩ <;> rw [e] at h <;> cases h
  · simp only [writtenAddrs, hm]
    intro a ha
    obtain ⟨hap, hapoll⟩ : a ∉ [p] ∧ a ∉ polledAddrs (pcRelative off s) := by simpa using ha
    rw [sameMemBut_memWrite p _ u a hap, sameMemBut_memRead hm a hapoll]
  · exact fun _ _ => rfl

/-- GETC writes no word of memory (R96). -/
theorem execTrapGetc_mem {ign : BitVec 4} {s t : State} (h : execTrapGetc ign s = .next t) :
    t.mem = s.mem := by
  rcases execTrapGetc_cases h with ⟨b, rest, -, rfl⟩ | ⟨-, -, rfl⟩ | ⟨-, rfl⟩ <;> simp

/-- Settles O53: a load or LDI writes where it polls, a store at its address, the others nowhere. -/
theorem memoryOutsideTheWrittenWordsIsKept : Obligations.MemoryOutsideTheWrittenWordsIsKept := by
  intro i s t h
  have kept (hmem : t.mem = s.mem) : SameMemBut (writtenAddrs i s) s t := fun a _ => by rw [hmem]
  cases i with
  | ld | ldr => exact sameMemBut_loadFrom (fun _ _ => sameMemBut_memRead) h
  | ldi dr off =>
    rcases exec_ldi_cases dr off s with ⟨p, u, hp, e⟩ | ⟨-, e⟩ <;> rw [e] at h
    · exact sameMemBut_loadFrom (fun _ _ => sameMemBut_pointerRead hp) h
    · cases h
      exact kept rfl
  | st | str =>
    cases h
    exact sameMemBut_memWrite _ _ s
  | sti => exact sameMemBut_sti h
  | trapGetc ign => exact kept (execTrapGetc_mem (ign := ign) h)
  | br n z p off =>
    simp only [exec, execBr] at h
    split at h <;> cases h <;> exact kept rfl
  | add | addi | and | andi | not | lea | jmp | jsr | jsrr | rti | res | trapOther =>
    cases h
    exact kept rfl
  | trapOut | trapPuts | trapIn | trapPutsp | trapHalt =>
    cases h
    exact kept (by simp)

end Sys2Proof.Machine
end

section
/-! SUPPORT. Every running step has a next state, and a step without input holds (20_memory.md R41 to R49,
R53). -/

namespace Sys2Proof.Machine

/-! ## A next state for every step -/

theorem loadFrom_next (dr : Reg) (addr : Word) (t s : State) : ∃ w, loadFrom dr addr t s = .next w := by
  rcases loadFrom_cases dr addr t s with ⟨v, u, -, e⟩ | ⟨-, e⟩
  · exact ⟨_, e⟩
  · exact ⟨_, e⟩

theorem exec_next (i : Instr) (s : State) : ∃ t, exec i s = .next t := by
  cases i with
  | ld | ldr => exact loadFrom_next _ _ s s
  | ldi dr off =>
    rcases exec_ldi_cases dr off s with ⟨p, t, -, e⟩ | ⟨-, e⟩ <;> rw [e]
    · exact loadFrom_next dr p t s
    · exact ⟨_, rfl⟩
  | sti sr off =>
    rcases exec_sti_cases sr off s with ⟨p, t, -, e⟩ | ⟨-, e⟩
    · exact ⟨_, e⟩
    · exact ⟨_, e⟩
  | trapGetc =>
    simp only [exec, execTrapGetc]
    split <;> exact ⟨_, rfl⟩
  | br | add | addi | and | andi | not | lea | st | str | jmp | jsr | jsrr | rti | res => exact ⟨_, rfl⟩
  | trapOut | trapPuts | trapIn | trapPutsp | trapHalt | trapOther => exact ⟨_, rfl⟩

theorem inSecondStep_next (s : State) : ∃ t, inSecondStep s = .next t := by
  unfold inSecondStep
  split <;> exact ⟨_, rfl⟩

theorem step_running {s : State} (h : s.run = .running) : step s = stepRunning s := by
  simp only [step, h]

theorem step_inWait {s : State} (h : s.run = .inWait) : step s = inSecondStep s := by
  simp only [step, h]

theorem stepRunning_next (s : State) : ∃ t, stepRunning s = .next t := by
  unfold stepRunning
  split
  case h_1 w t _ => exact exec_next (decodeWord w) t
  case h_2 => exact ⟨s, rfl⟩

/-- Settles O42: `exec` is total, and a running step is a hold or an `exec`. -/
theorem runningCoreAlwaysHasANextState : Obligations.RunningCoreAlwaysHasANextState := by
  refine ⟨exec_next, fun s hs => ?_⟩
  rcases hs with hrun | hwait
  · rw [step_running hrun]
    exact stepRunning_next s
  · rw [step_inWait hwait]
    exact inSecondStep_next s

/-! ## Holds -/

/-- A load at 0xFE00 in the state its step began in holds (R45). -/
theorem loadFrom_eq_holdStep (dr : Reg) {addr : Word} {s : State} (ha : addr = Config.kbsrAddr)
    (hn : s.noInput) : loadFrom dr addr s s = .next (holdStep s) := by
  rw [ha, loadFrom_hold dr hn]

/-- Settles O48: each instruction that takes input meets the hold at one of its reads, or is GETC. -/
theorem instructionWithoutInputIsNotTaken : Obligations.InstructionWithoutInputIsNotTaken := by
  intro i s htakes hn
  show exec i s = .next (holdStep s)
  cases i with
  | ld dr off => exact loadFrom_eq_holdStep dr (of_decide_eq_true htakes) hn
  | ldr dr base off => exact loadFrom_eq_holdStep dr (of_decide_eq_true htakes) hn
  | ldi dr off =>
    by_cases ha : pcRelative off s = Config.kbsrAddr
    · simp only [exec, execLdi, ha, memRead_hold hn]
    · have hptr : s.mem.read (pcRelative off s) = Config.kbsrAddr := by
        simpa [takesInput, ha] using htakes
      simp only [exec, execLdi, memRead_plain ha]
      exact loadFrom_eq_holdStep dr hptr hn
  | sti sr off =>
    have ha : pcRelative off s = Config.kbsrAddr := of_decide_eq_true htakes
    simp only [exec, execSti, ha, memRead_hold hn]
  | trapGetc =>
    have hn' : (trapEntry s).noInput := by rwa [State.noInput, trapEntry_inQ, trapEntry_inEnd]
    simp only [exec, execTrapGetc, inByte_hold hn']
  | br | add | addi | and | andi | not | lea | st | str | jmp | jsr | jsrr | rti | res => cases htakes
  | trapOut | trapPuts | trapIn | trapPutsp | trapHalt | trapOther => cases htakes

/-- Beside 0xFE00 a running step runs the word at PC (R68). -/
theorem step_plain {s : State} (hrun : s.run = .running) (hpc : s.pc ≠ Config.kbsrAddr) :
    step s = exec (decodeWord (s.mem.read s.pc)) (s.jumpTo (s.pc + 1#16)) := by
  simp only [step_running hrun, stepRunning, fetch, memRead_plain hpc, Option.map_some]

/-- A fetch at 0xFE00 with no input holds (R69). -/
theorem step_fetchHold {s : State} (hrun : s.run = .running) (hpc : s.pc = Config.kbsrAddr)
    (hn : s.noInput) : step s = .next s := by
  simp only [step_running hrun, stepRunning, fetch, hpc, memRead_hold hn, Option.map_none]

/-- Settles O47, by the three ways to hold: the fetch, the instruction, the second step of IN. -/
theorem holdingStepChangesNothing : Obligations.HoldingStepChangesNothing := by
  rintro s ⟨hn, ⟨hrun, hat⟩ | hwait⟩
  · by_cases hpc : s.pc = Config.kbsrAddr
    · exact step_fetchHold hrun hpc hn
    · have htakes := hat.resolve_left hpc
      rw [step_plain hrun hpc, instructionWithoutInputIsNotTaken _ _ htakes hn]
      have hback : s.pc + 1#16 - 1#16 = s.pc := BitVec.add_sub_cancel _ _
      simp only [jumpTo_pc, hback]
      rfl
  · rw [step_inWait hwait, inSecondStep, inByte_hold hn]

/-- Settles O49: after a move there is a byte in the queue or the end mark, so nothing holds. -/
theorem hostMovesTouchOnlyTheInput : Obligations.HostMovesTouchOnlyTheInput := by
  intro s t m h
  obtain ⟨hopen, ⟨b, rfl, rfl⟩ | ⟨rfl, rfl⟩⟩ := ConsoleMove.apply_cases h
  · have hinput : ¬ ({ s with inQ := s.inQ ++ [b] } : State).noInput := by simp
    refine ⟨hopen, fun hh => hinput hh.1, rfl, rfl, rfl, rfl, rfl, ⟨rfl, rfl⟩, ?_, nofun⟩
    rintro _ ⟨⟩
    exact ⟨rfl, hopen⟩
  · have hinput : ¬ ({ s with inEnd := true } : State).noInput := by simp
    exact ⟨hopen, fun hh => hinput hh.1, rfl, rfl, rfl, rfl, rfl, ⟨rfl, rfl⟩, nofun, fun _ => ⟨rfl, rfl⟩⟩

/-! ## The next fetch, and the end of a run -/

/-- `ST SR, #0` stores R[SR] at the address of the next instruction (R89). -/
theorem step_storeNext {s : State} {sr : Reg} (hrun : s.run = .running) (hpc : s.pc ≠ Config.kbsrAddr)
    (hdec : decodeWord (s.mem.read s.pc) = .st sr 0) :
    step s = .next (memWrite (s.pc + 1#16) (s.readReg sr) (s.jumpTo (s.pc + 1#16))) := by
  have haddr : pcRelative (0 : BitVec 9) (s.jumpTo (s.pc + 1#16)) = s.pc + 1#16 := BitVec.add_zero _
  rw [step_plain hrun hpc, hdec]
  simp only [exec, execSt, haddr, jumpTo_readReg]

/-- Settles O26: the word read at the next PC is the one just stored there. -/
theorem storedWordIsFetchedNext : Obligations.StoredWordIsFetchedNext := by
  intro s sr hrun hpc hpc' hdec
  refine ⟨_, step_storeNext hrun hpc hdec, rfl, ?_⟩
  have hnext : s.pc + 1#16 + 1#16 = s.pc + 2#16 := BitVec.add_assoc s.pc 1#16 1#16
  rw [step_plain (s := memWrite _ _ (s.jumpTo (s.pc + 1#16))) hrun hpc', memWrite_mem,
    memWrite_pc, jumpTo_pc, Memory.read_write, if_pos rfl, hnext]

/-- Settles O44, by the four run states; 1 and FATAL_EXIT_CODE differ because the latter is legal. -/
theorem exitCodesTellHaltFromFault : Obligations.ExitCodesTellHaltFromFault := by
  rintro s ⟨h0, h1⟩
  cases hrun : s.run with
  | running | inWait => simp [exitCode, hrun]
  | halted => simp [exitCode, hrun, Config.haltExitCode, Ne.symm h1]
  | faulted c => simp [exitCode, hrun, h0, h1]

end Sys2Proof.Machine
end

section
/-! SUPPORT. The fields of R57 (30_encoding.md) make up the word again, and how a mask meets them. -/

namespace Sys2Proof

theorem ofBool_getLsbD (w : Word) (k : Nat) : BitVec.ofBool (w.getLsbD k) = w.extractLsb' k 1 := by
  apply BitVec.eq_of_toNat_eq
  rw [toNat_ofBool_getLsbD, toNat_extract_eq, pow_one]

/-! ## The formats: neighbouring fields join to one -/

/-- BRF. -/
theorem append_mask_offset9 (w : Word) :
    opcodeOf w ++ BitVec.ofBool (w.getLsbD 11) ++ BitVec.ofBool (w.getLsbD 10) ++
      BitVec.ofBool (w.getLsbD 9) ++ offset9Of w = w := by
  simp [opcodeOf, ofBool_getLsbD, offset9Of, BitVec.extractLsb'_append_extractLsb'_eq_extractLsb',
    -BitVec.getLsbD_eq_getElem, -Nat.reduceAdd]

/-- LD, ST, LDI, STI, LEA. -/
theorem append_offset9 (w : Word) : opcodeOf w ++ field11to9 w ++ offset9Of w = w := by
  simp [opcodeOf, field11to9, offset9Of, BitVec.extractLsb'_append_extractLsb'_eq_extractLsb',
    -Nat.reduceAdd]

/-- The register forms of ADD and AND. -/
theorem append_registers (w : Word) :
    opcodeOf w ++ field11to9 w ++ field8to6 w ++ BitVec.ofBool (w.getLsbD 5) ++ w.extractLsb' 3 2 ++
      field2to0 w = w := by
  simp [opcodeOf, field11to9, field8to6, ofBool_getLsbD, field2to0,
    BitVec.extractLsb'_append_extractLsb'_eq_extractLsb', -BitVec.getLsbD_eq_getElem, -Nat.reduceAdd]

/-- The immediate forms of ADD and AND. -/
theorem append_immediate (w : Word) :
    opcodeOf w ++ field11to9 w ++ field8to6 w ++ BitVec.ofBool (w.getLsbD 5) ++ imm5Of w = w := by
  simp [opcodeOf, field11to9, field8to6, ofBool_getLsbD, imm5Of,
    BitVec.extractLsb'_append_extractLsb'_eq_extractLsb', -BitVec.getLsbD_eq_getElem, -Nat.reduceAdd]

/-- LDR, STR, NOT, JMP. -/
theorem append_offset6 (w : Word) :
    opcodeOf w ++ field11to9 w ++ field8to6 w ++ offset6Of w = w := by
  simp [opcodeOf, field11to9, field8to6, offset6Of,
    BitVec.extractLsb'_append_extractLsb'_eq_extractLsb', -Nat.reduceAdd]

/-- JSR. -/
theorem append_offset11 (w : Word) :
    opcodeOf w ++ BitVec.ofBool (w.getLsbD 11) ++ offset11Of w = w := by
  simp [opcodeOf, ofBool_getLsbD, offset11Of, BitVec.extractLsb'_append_extractLsb'_eq_extractLsb',
    -BitVec.getLsbD_eq_getElem, -Nat.reduceAdd]

/-- JSRR. -/
theorem append_base (w : Word) :
    opcodeOf w ++ BitVec.ofBool (w.getLsbD 11) ++ w.extractLsb' 9 2 ++ field8to6 w ++ offset6Of w = w := by
  simp [opcodeOf, ofBool_getLsbD, field8to6, offset6Of,
    BitVec.extractLsb'_append_extractLsb'_eq_extractLsb', -BitVec.getLsbD_eq_getElem, -Nat.reduceAdd]

/-- RTI and RES. -/
theorem append_low12 (w : Word) : opcodeOf w ++ low12Of w = w := by
  simp [opcodeOf, low12Of, BitVec.extractLsb'_append_extractLsb'_eq_extractLsb', -Nat.reduceAdd]

/-- TRAP. -/
theorem append_vector (w : Word) : opcodeOf w ++ field11to8 w ++ lowByte w = w := by
  simp [opcodeOf, field11to8, lowByte, BitVec.extractLsb'_append_extractLsb'_eq_extractLsb',
    -Nat.reduceAdd]

/-! ## Masks -/

/-- Words that agree under a mask agree in every field the mask covers. -/
theorem extractLsb'_eq_of_and_eq {w w' mask : Word} (h : w &&& mask = w' &&& mask) (start len : Nat)
    (hm : mask.extractLsb' start len = BitVec.allOnes len) :
    w.extractLsb' start len = w'.extractLsb' start len := by
  have := congrArg (BitVec.extractLsb' start len) h
  simpa only [BitVec.extractLsb'_and, hm, BitVec.and_allOnes] using this

theorem getLsbD_eq_of_and_eq {w w' mask : Word} (h : w &&& mask = w' &&& mask) (k : Nat)
    (hm : mask.getLsbD k = true) : w.getLsbD k = w'.getLsbD k := by
  have := congrArg (BitVec.getLsbD · k) h
  simpa only [BitVec.getLsbD_and, hm, Bool.and_true] using this

/-- Words are equal when opcode, bits 11:8 and low byte are. -/
theorem word_eq_iff (w w' : Word) :
    w = w' ↔ opcodeOf w = opcodeOf w' ∧ field11to8 w = field11to8 w' ∧ lowByte w = lowByte w' := by
  constructor
  · rintro rfl
    exact ⟨rfl, rfl, rfl⟩
  · rintro ⟨hop, hmid, hlow⟩
    rw [← append_vector w, hop, hmid, hlow, append_vector]

/-- A row of the opcode table is matched part by part: opcode, bits 11:8, low byte. -/
theorem OpcodeRow.matchesWord_eq (r : OpcodeRow) (w : Word) :
    r.matchesWord w = decide (opcodeOf w &&& opcodeOf r.mask = opcodeOf r.pattern ∧
      field11to8 w &&& field11to8 r.mask = field11to8 r.pattern ∧
      lowByte w &&& lowByte r.mask = lowByte r.pattern) := by
  rw [Bool.eq_iff_iff, decide_eq_true_iff, OpcodeRow.matchesWord, beq_iff_eq, word_eq_iff]
  simp only [opcodeOf, field11to8, lowByte, BitVec.extractLsb'_and]

@[simp] theorem opcodeOf_ofNat (n : Nat) : opcodeOf (BitVec.ofNat 16 n) = BitVec.ofNat 4 (n / 4096) := by
  apply BitVec.eq_of_toNat_eq
  simp only [opcodeOf, toNat_extract_eq, BitVec.toNat_ofNat]
  omega

@[simp] theorem field11to8_ofNat (n : Nat) : field11to8 (BitVec.ofNat 16 n) = BitVec.ofNat 4 (n / 256) := by
  apply BitVec.eq_of_toNat_eq
  simp only [field11to8, toNat_extract_eq, BitVec.toNat_ofNat]
  omega

@[simp] theorem lowByte_ofNat (n : Nat) : lowByte (BitVec.ofNat 16 n) = BitVec.ofNat 8 n := by
  apply BitVec.eq_of_toNat_eq
  simp only [lowByte, toNat_extract_eq, BitVec.toNat_ofNat]
  omega

/-- The mode bit of ADD and AND (R60). -/
theorem lowByte_and_bit5 (w : Word) : lowByte w &&& 0x20#8 = if w.getLsbD 5 then 0x20#8 else 0#8 := by
  have hbit : (lowByte w).getLsbD 5 = w.getLsbD 5 := by simp [lowByte]
  rw [← hbit]
  exact BitVec.and_twoPow (lowByte w) 5

/-- The mode bit of JSR and JSRR (R60). -/
theorem field11to8_and_bit11 (w : Word) : field11to8 w &&& 8#4 = if w.getLsbD 11 then 8#4 else 0#4 := by
  have hbit : (field11to8 w).getLsbD 3 = w.getLsbD 11 := by simp [field11to8]
  rw [← hbit]
  exact BitVec.and_twoPow (field11to8 w) 3

theorem isServiceVector_iff (v : Byte) : isServiceVector v = true ↔
    v = 0x20#8 ∨ v = 0x21#8 ∨ v = 0x22#8 ∨ v = 0x23#8 ∨ v = 0x24#8 ∨ v = 0x25#8 := by
  simp [isServiceVector, or_assoc]

end Sys2Proof
end

section
/-! SUPPORT. What a word decodes to, said once for all 25 rows (30_encoding.md R55 to R65): decoding and
encoding agree, and the opcode table agrees with both. -/

namespace Sys2Proof

/-! ## Encode, then decode -/

/-- Decoding reads every field from where encoding put it; a well-formed TRAP_OTHER holds no vector of a
service. -/
theorem decodeWord_encode {i : Instr} (hwf : i.wf = true) : decodeWord (encode i) = i := by
  have hop : opcodeOf (encode i) = Laws.opcodeNumber i := Laws.opcodeOf_encode i
  unfold decodeWord
  rw [hop]
  cases i with
  | br =>
    simp [Laws.opcodeNumber, encode, offset9Of, BitVec.getLsbD_append,
      BitVec.extractLsb'_append_eq_ite, -BitVec.getLsbD_eq_getElem, -Nat.reduceAdd]
  | ld | st | ldi | sti | lea =>
    simp [Laws.opcodeNumber, encode, field11to9, offset9Of, BitVec.extractLsb'_append_eq_ite,
      -Nat.reduceAdd]
  | ldr | str | not | jmp =>
    simp [Laws.opcodeNumber, encode, field11to9, field8to6, offset6Of,
      BitVec.extractLsb'_append_eq_ite, -Nat.reduceAdd]
  | rti | res =>
    simp [Laws.opcodeNumber, encode, low12Of, BitVec.extractLsb'_append_eq_ite, -Nat.reduceAdd]
  | add | addi | and | andi =>
    simp [Laws.opcodeNumber, decodeAdd, decodeAnd, encode, field11to9, field8to6, field2to0, imm5Of,
      BitVec.getLsbD_append, BitVec.extractLsb'_append_eq_ite, -BitVec.getLsbD_eq_getElem,
      -Nat.reduceAdd]
  | jsr | jsrr =>
    simp [Laws.opcodeNumber, decodeJsr, encode, field8to6, offset6Of, offset11Of,
      BitVec.getLsbD_append, BitVec.extractLsb'_append_eq_ite, -BitVec.getLsbD_eq_getElem,
      -Nat.reduceAdd]
  | trapGetc | trapOut | trapPuts | trapIn | trapPutsp | trapHalt =>
    simp [Laws.opcodeNumber, decodeTrap, encode, field11to8, lowByte,
      BitVec.extractLsb'_append_eq_ite, -Nat.reduceAdd]
  | trapOther ign v =>
    have hv : ¬ isServiceVector v = true := by simpa [Instr.wf] using hwf
    simp only [isServiceVector_iff, not_or] at hv
    simp [Laws.opcodeNumber, decodeTrap, encode, field11to8, lowByte, hv,
      BitVec.extractLsb'_append_eq_ite, -Nat.reduceAdd]

/-! ## The instruction of a word -/

/-- The opcode map of R56 with the mode bits of R60 and the vectors of R92: `DecodesTo w i` gives the bits
of `w` that select the row of `i`, and the fields `i` takes from `w`. -/
inductive DecodesTo (w : Word) : Instr → Prop
  | br (hop : opcodeOf w = 0x0#4) :
      DecodesTo w (.br (w.getLsbD 11) (w.getLsbD 10) (w.getLsbD 9) (offset9Of w))
  | add (hop : opcodeOf w = 0x1#4) (hbit : w.getLsbD 5 = false) :
      DecodesTo w (.add (field11to9 w) (field8to6 w) (field2to0 w) (w.extractLsb' 3 2))
  | addi (hop : opcodeOf w = 0x1#4) (hbit : w.getLsbD 5 = true) :
      DecodesTo w (.addi (field11to9 w) (field8to6 w) (imm5Of w))
  | ld (hop : opcodeOf w = 0x2#4) : DecodesTo w (.ld (field11to9 w) (offset9Of w))
  | st (hop : opcodeOf w = 0x3#4) : DecodesTo w (.st (field11to9 w) (offset9Of w))
  | jsrr (hop : opcodeOf w = 0x4#4) (hbit : w.getLsbD 11 = false) :
      DecodesTo w (.jsrr (field8to6 w) (w.extractLsb' 9 2) (offset6Of w))
  | jsr (hop : opcodeOf w = 0x4#4) (hbit : w.getLsbD 11 = true) : DecodesTo w (.jsr (offset11Of w))
  | and (hop : opcodeOf w = 0x5#4) (hbit : w.getLsbD 5 = false) :
      DecodesTo w (.and (field11to9 w) (field8to6 w) (field2to0 w) (w.extractLsb' 3 2))
  | andi (hop : opcodeOf w = 0x5#4) (hbit : w.getLsbD 5 = true) :
      DecodesTo w (.andi (field11to9 w) (field8to6 w) (imm5Of w))
  | ldr (hop : opcodeOf w = 0x6#4) : DecodesTo w (.ldr (field11to9 w) (field8to6 w) (offset6Of w))
  | str (hop : opcodeOf w = 0x7#4) : DecodesTo w (.str (field11to9 w) (field8to6 w) (offset6Of w))
  | rti (hop : opcodeOf w = 0x8#4) : DecodesTo w (.rti (low12Of w))
  | not (hop : opcodeOf w = 0x9#4) : DecodesTo w (.not (field11to9 w) (field8to6 w) (offset6Of w))
  | ldi (hop : opcodeOf w = 0xA#4) : DecodesTo w (.ldi (field11to9 w) (offset9Of w))
  | sti (hop : opcodeOf w = 0xB#4) : DecodesTo w (.sti (field11to9 w) (offset9Of w))
  | jmp (hop : opcodeOf w = 0xC#4) : DecodesTo w (.jmp (field8to6 w) (field11to9 w) (offset6Of w))
  | res (hop : opcodeOf w = 0xD#4) : DecodesTo w (.res (low12Of w))
  | lea (hop : opcodeOf w = 0xE#4) : DecodesTo w (.lea (field11to9 w) (offset9Of w))
  | trapGetc (hop : opcodeOf w = 0xF#4) (hv : lowByte w = 0x20#8) : DecodesTo w (.trapGetc (field11to8 w))
  | trapOut (hop : opcodeOf w = 0xF#4) (hv : lowByte w = 0x21#8) : DecodesTo w (.trapOut (field11to8 w))
  | trapPuts (hop : opcodeOf w = 0xF#4) (hv : lowByte w = 0x22#8) : DecodesTo w (.trapPuts (field11to8 w))
  | trapIn (hop : opcodeOf w = 0xF#4) (hv : lowByte w = 0x23#8) : DecodesTo w (.trapIn (field11to8 w))
  | trapPutsp (hop : opcodeOf w = 0xF#4) (hv : lowByte w = 0x24#8) : DecodesTo w (.trapPutsp (field11to8 w))
  | trapHalt (hop : opcodeOf w = 0xF#4) (hv : lowByte w = 0x25#8) : DecodesTo w (.trapHalt (field11to8 w))
  | trapOther (hop : opcodeOf w = 0xF#4) (hv : ¬ isServiceVector (lowByte w) = true) :
      DecodesTo w (.trapOther (field11to8 w) (lowByte w))

theorem decodesTo_decodeAdd {w : Word} (hop : opcodeOf w = 0x1#4) : DecodesTo w (decodeAdd w) := by
  unfold decodeAdd
  split
  case isTrue hbit => exact .addi hop hbit
  case isFalse hbit => exact .add hop (Bool.eq_false_of_not_eq_true hbit)

theorem decodesTo_decodeAnd {w : Word} (hop : opcodeOf w = 0x5#4) : DecodesTo w (decodeAnd w) := by
  unfold decodeAnd
  split
  case isTrue hbit => exact .andi hop hbit
  case isFalse hbit => exact .and hop (Bool.eq_false_of_not_eq_true hbit)

theorem decodesTo_decodeJsr {w : Word} (hop : opcodeOf w = 0x4#4) : DecodesTo w (decodeJsr w) := by
  unfold decodeJsr
  split
  case isTrue hbit => exact .jsr hop hbit
  case isFalse hbit => exact .jsrr hop (Bool.eq_false_of_not_eq_true hbit)

theorem decodesTo_decodeTrap {w : Word} (hop : opcodeOf w = 0xF#4) : DecodesTo w (decodeTrap w) := by
  unfold decodeTrap
  split_ifs with h20 h21 h22 h23 h24 h25
  · exact .trapGetc hop h20
  · exact .trapOut hop h21
  · exact .trapPuts hop h22
  · exact .trapIn hop h23
  · exact .trapPutsp hop h24
  · exact .trapHalt hop h25
  · refine .trapOther hop ?_
    simp only [isServiceVector_iff, not_or]
    exact ⟨h20, h21, h22, h23, h24, h25⟩

/-- Every word has its row (R65). -/
theorem decodesTo_decodeWord (w : Word) : DecodesTo w (decodeWord w) := by
  have hlt := (opcodeOf w).isLt
  unfold decodeWord
  split
  case h_1 h => exact .br (BitVec.eq_of_toNat_eq h)
  case h_2 h => exact decodesTo_decodeAdd (BitVec.eq_of_toNat_eq h)
  case h_3 h => exact .ld (BitVec.eq_of_toNat_eq h)
  case h_4 h => exact .st (BitVec.eq_of_toNat_eq h)
  case h_5 h => exact decodesTo_decodeJsr (BitVec.eq_of_toNat_eq h)
  case h_6 h => exact decodesTo_decodeAnd (BitVec.eq_of_toNat_eq h)
  case h_7 h => exact .ldr (BitVec.eq_of_toNat_eq h)
  case h_8 h => exact .str (BitVec.eq_of_toNat_eq h)
  case h_9 h => exact .rti (BitVec.eq_of_toNat_eq h)
  case h_10 h => exact .not (BitVec.eq_of_toNat_eq h)
  case h_11 h => exact .ldi (BitVec.eq_of_toNat_eq h)
  case h_12 h => exact .sti (BitVec.eq_of_toNat_eq h)
  case h_13 h => exact .jmp (BitVec.eq_of_toNat_eq h)
  case h_14 h => exact .res (BitVec.eq_of_toNat_eq h)
  case h_15 h => exact .lea (BitVec.eq_of_toNat_eq h)
  case h_16 =>
    -- Four bits: with 0 to 14 excluded, 15 is left.
    simp only [imp_false] at *
    have h : (opcodeOf w).toNat = 15 := by omega
    exact decodesTo_decodeTrap (BitVec.eq_of_toNat_eq h)

namespace DecodesTo

theorem wf {w : Word} {i : Instr} (h : DecodesTo w i) : i.wf = true := by
  cases h with
  | trapOther hop hv => simp [Instr.wf, hv]
  | _ => rfl

/-- The bits that select the row and the fields of its format are the whole word (R57). -/
theorem encode_eq {w : Word} {i : Instr} (h : DecodesTo w i) : encode i = w := by
  cases h with
  | br hop =>
    have hw := append_mask_offset9 w
    rwa [hop] at hw
  | ld hop | st hop | ldi hop | sti hop | lea hop =>
    have hw := append_offset9 w
    rwa [hop] at hw
  | ldr hop | str hop | not hop | jmp hop =>
    have hw := append_offset6 w
    rwa [hop] at hw
  | rti hop | res hop =>
    have hw := append_low12 w
    rwa [hop] at hw
  | add hop hbit | and hop hbit =>
    have hw := append_registers w
    rwa [hop, hbit] at hw
  | addi hop hbit | andi hop hbit =>
    have hw := append_immediate w
    rwa [hop, hbit] at hw
  | jsr hop hbit =>
    have hw := append_offset11 w
    rwa [hop, hbit] at hw
  | jsrr hop hbit =>
    have hw := append_base w
    rwa [hop, hbit] at hw
  | trapGetc hop hv | trapOut hop hv | trapPuts hop hv | trapIn hop hv | trapPutsp hop hv
  | trapHalt hop hv =>
    have hw := append_vector w
    rwa [hop, hv] at hw
  | trapOther hop =>
    have hw := append_vector w
    rwa [hop] at hw

/-- The first matching row is the one of the opcode; below it the mode bit or the vector decides. -/
theorem mnemonic_eq {w : Word} {i : Instr} (h : DecodesTo w i) :
    (opcodeTable.find? (·.matchesWord w)).map (·.mnemonic) = some i.mnemonic := by
  cases h with
  | br hop | ld hop | st hop | ldr hop | str hop | rti hop | not hop | ldi hop | sti hop | jmp hop
  | res hop | lea hop =>
    simp [opcodeTable, OpcodeRow.matchesWord_eq, Instr.mnemonic, hop]
  | add hop hbit | addi hop hbit | and hop hbit | andi hop hbit =>
    simp [opcodeTable, OpcodeRow.matchesWord_eq, Instr.mnemonic, hop, lowByte_and_bit5, hbit,
      -BitVec.getLsbD_eq_getElem]
  | jsr hop hbit | jsrr hop hbit =>
    simp [opcodeTable, OpcodeRow.matchesWord_eq, Instr.mnemonic, hop, field11to8_and_bit11, hbit,
      -BitVec.getLsbD_eq_getElem]
  | trapGetc hop hv | trapOut hop hv | trapPuts hop hv | trapIn hop hv | trapPutsp hop hv
  | trapHalt hop hv =>
    simp [opcodeTable, OpcodeRow.matchesWord_eq, Instr.mnemonic, hop, hv]
  | trapOther hop hv =>
    simp only [isServiceVector_iff, not_or] at hv
    have hall : lowByte w &&& 0xFF#8 = lowByte w := BitVec.and_allOnes
    simp [opcodeTable, OpcodeRow.matchesWord_eq, Instr.mnemonic, hop, hv, hall]

end DecodesTo

end Sys2Proof
end

section
/-! SUPPORT. The statements of 30_encoding.md, and the bits that no meaning reads (R61). -/

namespace Sys2Proof.Machine

/-- Settles O1. -/
theorem decodeOfEncodeIsIdentity : Obligations.DecodeOfEncodeIsIdentity :=
  fun _ => decodeWord_encode

/-- Settles O2. -/
theorem encodeOfDecodeIsIdentity : Obligations.EncodeOfDecodeIsIdentity := fun w =>
  ⟨(decodesTo_decodeWord w).wf, (decodesTo_decodeWord w).encode_eq⟩

/-- Settles O3. -/
theorem decodedInstructionIsTheTableRow : Obligations.DecodedInstructionIsTheTableRow := fun w =>
  (decodesTo_decodeWord w).mnemonic_eq

/-- Settles O4. -/
theorem sampleWordsDecode : Obligations.SampleWordsDecode := by
  unfold Obligations.SampleWordsDecode
  decide

/-! ## Ignored bits -/

/-- OPR: bits 4:3. -/
theorem exec_registers_congr {w w' : Word} (h : w &&& 0xFFE7#16 = w' &&& 0xFFE7#16)
    (hop : opcodeOf w = 1#4 ∨ opcodeOf w = 5#4) (hbit : w.getLsbD 5 = false) (s : State) :
    exec (decodeWord w) s = exec (decodeWord w') s := by
  have hop' : opcodeOf w = opcodeOf w' := extractLsb'_eq_of_and_eq h 12 4 (by decide)
  have hbit' : w.getLsbD 5 = w'.getLsbD 5 := getLsbD_eq_of_and_eq h 5 (by decide)
  have hdr : field11to9 w = field11to9 w' := extractLsb'_eq_of_and_eq h 9 3 (by decide)
  have hsr1 : field8to6 w = field8to6 w' := extractLsb'_eq_of_and_eq h 6 3 (by decide)
  have hsr2 : field2to0 w = field2to0 w' := extractLsb'_eq_of_and_eq h 0 3 (by decide)
  rcases hop with hop | hop
  · simp only [decodeWord, decodeAdd, ← hop', hop, ← hbit', hbit, hdr, hsr1, hsr2]
    rfl
  · simp only [decodeWord, decodeAnd, ← hop', hop, ← hbit', hbit, hdr, hsr1, hsr2]
    rfl

/-- NOTF: bits 5:0. -/
theorem exec_not_congr {w w' : Word} (h : w &&& 0xFFC0#16 = w' &&& 0xFFC0#16) (hop : opcodeOf w = 9#4)
    (s : State) : exec (decodeWord w) s = exec (decodeWord w') s := by
  have hop' : opcodeOf w = opcodeOf w' := extractLsb'_eq_of_and_eq h 12 4 (by decide)
  have hdr : field11to9 w = field11to9 w' := extractLsb'_eq_of_and_eq h 9 3 (by decide)
  have hsr : field8to6 w = field8to6 w' := extractLsb'_eq_of_and_eq h 6 3 (by decide)
  simp only [decodeWord, ← hop', hop, hdr, hsr]
  rfl

/-- JMPF: bits 11:9 and 5:0. -/
theorem exec_jmp_congr {w w' : Word} (h : w &&& 0xF1C0#16 = w' &&& 0xF1C0#16) (hop : opcodeOf w = 12#4)
    (s : State) : exec (decodeWord w) s = exec (decodeWord w') s := by
  have hop' : opcodeOf w = opcodeOf w' := extractLsb'_eq_of_and_eq h 12 4 (by decide)
  have hbase : field8to6 w = field8to6 w' := extractLsb'_eq_of_and_eq h 6 3 (by decide)
  simp only [decodeWord, ← hop', hop, hbase]
  rfl

/-- JSRRF: bits 10:9 and 5:0. -/
theorem exec_jsrr_congr {w w' : Word} (h : w &&& 0xF9C0#16 = w' &&& 0xF9C0#16) (hop : opcodeOf w = 4#4)
    (hbit : w.getLsbD 11 = false) (s : State) : exec (decodeWord w) s = exec (decodeWord w') s := by
  have hop' : opcodeOf w = opcodeOf w' := extractLsb'_eq_of_and_eq h 12 4 (by decide)
  have hbit' : w.getLsbD 11 = w'.getLsbD 11 := getLsbD_eq_of_and_eq h 11 (by decide)
  have hbase : field8to6 w = field8to6 w' := extractLsb'_eq_of_and_eq h 6 3 (by decide)
  simp only [decodeWord, decodeJsr, ← hop', hop, ← hbit', hbit, hbase]
  rfl

/-- TRAPF: bits 11:8, for the six services. -/
theorem exec_service_congr {w w' : Word} (h : w &&& 0xF0FF#16 = w' &&& 0xF0FF#16)
    (hop : opcodeOf w = 15#4) (hv : isServiceVector (lowByte w) = true) (s : State) :
    exec (decodeWord w) s = exec (decodeWord w') s := by
  have hop' : opcodeOf w = opcodeOf w' := extractLsb'_eq_of_and_eq h 12 4 (by decide)
  have hlow : lowByte w = lowByte w' := extractLsb'_eq_of_and_eq h 0 8 (by decide)
  simp only [decodeWord, decodeTrap, ← hop', hop, ← hlow]
  rcases (isServiceVector_iff _).mp hv with hv | hv | hv | hv | hv | hv <;> rw [hv] <;> rfl

/-- Settles O5, format by format: the bits a meaning reads are those its mask keeps. -/
theorem ignoredBitsChangeNothing : Obligations.IgnoredBitsChangeNothing := by
  intro w w' mask h hformat s
  obtain ⟨rfl, hop, hbit⟩ | ⟨rfl, hop⟩ | ⟨rfl, hop⟩ | ⟨rfl, hop, hbit⟩ | ⟨rfl, hop, hv⟩ := hformat
  · exact exec_registers_congr h hop hbit s
  · exact exec_not_congr h hop s
  · exact exec_jmp_congr h hop s
  · exact exec_jsrr_congr h hop hbit s
  · exact exec_service_congr h hop hv s

end Sys2Proof.Machine
end

section
/-! SUPPORT. The step as the spec writes it (40_execution_loop.md R68 to R73), and the move of the host
that commutes with it (R76). -/

namespace Sys2Proof.Machine

/-! ## The fetch beside 0xFE00 and at it -/

/-- Settles O39. -/
theorem stepRunsTheDecodedInstruction : Obligations.StepRunsTheDecodedInstruction := by
  intro s i hrun hpc _ hdec
  rw [step_plain hrun hpc, hdec]

/-- The loading aid moves PC off 0xFE00, where the fetch would replace the word (log 3). -/
theorem withFetchWord_pc_ne (s : State) (nbits w : Nat) : (s.withFetchWord nbits w).pc ≠ Config.kbsrAddr := by
  simp only [State.withFetchWord]
  split
  · decide
  · assumption

theorem withFetchWord_read_pc (s : State) (w : Word) :
    (s.withFetchWord 16 w.toNat).mem.read (s.withFetchWord 16 w.toNat).pc = w := by
  simp [State.withFetchWord]

/-- Settles O41: the placed word is the one a fetch beside 0xFE00 reads. -/
theorem placedWordRunsNext : Obligations.PlacedWordRunsNext := by
  intro s w
  refine ⟨(s.withFetchWord 16 w.toNat).jumpTo ((s.withFetchWord 16 w.toNat).pc + 1#16), ?_, rfl, rfl,
    rfl, rfl, rfl, ⟨rfl, rfl, rfl⟩, rfl⟩
  rw [step_plain rfl (withFetchWord_pc_ne s _ _), withFetchWord_read_pc]

/-- A fetch at 0xFE00 that polled runs the word the poll left in KBSR (R69). -/
theorem step_fetchPolled {s u : State} (hrun : s.run = .running) (hpc : s.pc = Config.kbsrAddr)
    (hpoll : poll s = some u) :
    step s = exec (decodeWord (u.mem.read Config.kbsrAddr)) (u.jumpTo (u.pc + 1#16)) := by
  simp only [step_running hrun, stepRunning, fetch, memRead, hpc, if_true, hpoll, Option.map_some]

/-- Settles O40: the fetch reads the word the poll left in KBSR, an RTI or a branch never taken. -/
theorem fetchFromKbsrPolls : Obligations.FetchFromKbsrPolls := by
  intro s hrun hpc hinput
  obtain ⟨u, hpoll, hu⟩ := poll_polled hinput
  have hstep := step_fetchPolled hrun hpc hpoll
  obtain ⟨-, hupc, -, ⟨hurun, -⟩, -⟩ := id hu
  have hnext : u.pc + 1#16 = 0xFE01#16 := by rw [hupc, hpc]; rfl
  rcases hu.kbsr with hk | hk <;> rw [hk] at hstep
  · have haddr : instrAddr (u.jumpTo (u.pc + 1#16)) = 0xFE00#16 := by rw [instrAddr, jumpTo_pc, hnext]; rfl
    refine ⟨u, _, hu, hstep.trans (exec_ready _), hnext, fun _ _ => rfl, fun _ _ => rfl, rfl,
      ⟨rfl, rfl, rfl⟩, rfl, ?_⟩
    rw [raiseUnsupportedOpcode, raiseFault_run, haddr]
    exact (if_pos hk).symm
  · have hidle : u.mem.read Config.kbsrAddr ≠ 0x8000#16 := by rw [hk]; decide
    refine ⟨u, _, hu, hstep.trans (exec_zero _), hnext, fun _ _ => rfl, fun _ _ => rfl, rfl,
      ⟨rfl, rfl, rfl⟩, rfl, ?_⟩
    rw [jumpTo_run, hurun, hrun]
    exact (if_neg hidle).symm

/-- Settles O43. -/
theorem finalStatesTakeNoStep : Obligations.FinalStatesTakeNoStep := fun s =>
  ⟨fun h => by simp only [step, h], fun c h => by simp only [step, h]⟩

/-! ## The move of the host -/

/-- The bytes a move appends to the input (R46). -/
def ConsoleMove.delivered : ConsoleMove → List Byte
  | .deliver b => [b]
  | .close => []

/-- The move marks the end of the input (R46). -/
def ConsoleMove.closes : ConsoleMove → Bool
  | .deliver _ => false
  | .close => true

/-- What a move makes of a state whose input is open: both moves are one update of the input, so an
operation that does not look at the input commutes with it by `rfl`. -/
def ConsoleMove.effect (m : ConsoleMove) (s : State) : State :=
  { s with inQ := s.inQ ++ m.delivered, inEnd := s.inEnd || m.closes }

/-- While the input is open a move answers its effect. -/
theorem ConsoleMove.apply_eq {s : State} (m : ConsoleMove) (hopen : s.inEnd = false) :
    m.apply s = some (m.effect s) := by
  cases m <;> simp [ConsoleMove.apply, ConsoleMove.effect, ConsoleMove.delivered, ConsoleMove.closes, hopen]

/-! ## The operations after a move -/

theorem trapEntry_effect (m : ConsoleMove) (s : State) : trapEntry (m.effect s) = m.effect (trapEntry s) := by
  simp only [trapEntry, apply_ite m.effect]
  rfl

theorem receiveByte_effect (m : ConsoleMove) (b : Byte) (s : State) :
    receiveByte b (m.effect s) = m.effect (receiveByte b s) := by
  simp only [receiveByte, apply_ite m.effect]
  rfl

theorem outByte_effect (m : ConsoleMove) (b : Byte) (s : State) :
    outByte b (m.effect s) = m.effect (outByte b s) := rfl

theorem printScan_effect (m : ConsoleMove) (r : StringScan) (s : State) :
    printScan r (m.effect s) = m.effect (printScan r s) := by
  simp only [printScan, apply_ite m.effect]
  rfl

theorem puts_effect (m : ConsoleMove) (s : State) : puts (m.effect s) = m.effect (puts s) :=
  printScan_effect m _ s

theorem putsp_effect (m : ConsoleMove) (s : State) : putsp (m.effect s) = m.effect (putsp s) :=
  printScan_effect m _ s

/-- A byte at the head of the input is taken in the same way after a move, which appends behind it (R44). -/
theorem inByte_effect (m : ConsoleMove) {s : State} {b : Byte} {rest : List Byte} (hq : s.inQ = b :: rest) :
    inByte (m.effect s) = .byte b (m.effect { s with inQ := rest }) :=
  inByte_cons (congrArg (· ++ m.delivered) hq)

/-- A poll that did not hold took a byte, so it does the same after a move (R31). -/
theorem poll_effect (m : ConsoleMove) {s u : State} (hopen : s.inEnd = false) (h : poll s = some u) :
    poll (m.effect s) = some (m.effect u) := by
  rcases inByte_cases s with ⟨b, rest, hq, e⟩ | ⟨-, hend, -⟩ | ⟨hn, -⟩
  · simp only [poll, e] at h
    simp only [poll, inByte_effect m hq]
    split at h
    case isTrue hb =>
      rw [if_pos hb]
      cases h
      rfl
    case isFalse hb =>
      rw [if_neg hb]
      cases h
      rfl
  · rw [hopen] at hend
    cases hend
  · rw [poll_hold hn] at h
    cases h

/-- A read that did not hold reads the same word after a move (R35). -/
theorem memRead_effect (m : ConsoleMove) {a v : Word} {s u : State} (hopen : s.inEnd = false)
    (h : memRead a s = some (v, u)) : memRead a (m.effect s) = some (v, m.effect u) := by
  by_cases ha : a = Config.kbsrAddr
  · simp only [memRead, if_pos ha, Option.map_eq_some_iff, Prod.mk.injEq] at h ⊢
    obtain ⟨w, hpoll, hv, rfl⟩ := h
    exact ⟨m.effect w, poll_effect m hopen hpoll, hv, rfl⟩
  · rw [memRead_plain ha] at h ⊢
    cases h
    rfl

/-- A read holds only at 0xFE00 with no input (R45). -/
theorem noInput_of_memRead_none {a : Word} {s : State} (h : memRead a s = none) :
    a = Config.kbsrAddr ∧ s.noInput := by
  rcases memRead_cases a s with ⟨-, e⟩ | ⟨-, -, u, -, e⟩ | ⟨ha, hn, -⟩
  · rw [e] at h
    cases h
  · rw [e] at h
    cases h
  · exact ⟨ha, hn⟩

/-! ## The instructions after a move -/

/-- A load that did not hold loads the same word after a move. -/
theorem loadFrom_effect (m : ConsoleMove) {dr : Reg} {addr : Word} {s s' t w : State} (hopen : t.inEnd = false)
    (hlive : addr = Config.kbsrAddr → ¬ t.noInput) (h : loadFrom dr addr t s = .next w) :
    loadFrom dr addr (m.effect t) s' = .next (m.effect w) := by
  rcases loadFrom_cases dr addr t s with ⟨v, u, hm, e⟩ | ⟨hm, -⟩
  · rw [e] at h
    cases h
    simp only [loadFrom, memRead_effect m hopen hm]
    rfl
  · obtain ⟨ha, hn⟩ := noInput_of_memRead_none hm
    exact absurd hn (hlive ha)

/-- LDI after a move: neither of its reads held, since a pointer read that polled is no pointer to 0xFE00. -/
theorem exec_ldi_effect (m : ConsoleMove) {dr : Reg} {off : BitVec 9} {s t : State} (hopen : s.inEnd = false)
    (hlive : takesInput (.ldi dr off) s = true → ¬ s.noInput) (h : exec (.ldi dr off) s = .next t) :
    exec (.ldi dr off) (m.effect s) = .next (m.effect t) := by
  simp only [takesInput, Bool.or_eq_true, decide_eq_true_eq] at hlive
  rcases exec_ldi_cases dr off s with ⟨p, u, hp, e⟩ | ⟨hnone, -⟩
  · rw [e] at h
    have huopen : u.inEnd = false := by
      obtain ⟨-, -, -, -, hend, -⟩ := memRead_frame hp
      rw [hend, hopen]
    have hvalue : p = Config.kbsrAddr → ¬ u.noInput := by
      intro hpk hn
      rcases memRead_ptr hp with rfl | ⟨-, hne⟩
      · obtain ⟨-, -, -, -, -, -, hread, -⟩ := memRead_frame hp
        exact hlive (.inr (hread ▸ hpk)) hn
      · exact hne hpk
    have hp' : memRead (pcRelative off (m.effect s)) (m.effect s) = some (p, m.effect u) :=
      memRead_effect m hopen hp
    simp only [exec, execLdi, hp']
    exact loadFrom_effect m huopen hvalue h
  · obtain ⟨ha, hn⟩ := noInput_of_memRead_none hnone
    exact absurd hn (hlive (.inl ha))

/-- STI after a move. -/
theorem exec_sti_effect (m : ConsoleMove) {sr : Reg} {off : BitVec 9} {s t : State} (hopen : s.inEnd = false)
    (hlive : takesInput (.sti sr off) s = true → ¬ s.noInput) (h : exec (.sti sr off) s = .next t) :
    exec (.sti sr off) (m.effect s) = .next (m.effect t) := by
  rcases exec_sti_cases sr off s with ⟨p, u, hp, e⟩ | ⟨hnone, -⟩
  · rw [e] at h
    cases h
    have hp' : memRead (pcRelative off (m.effect s)) (m.effect s) = some (p, m.effect u) :=
      memRead_effect m hopen hp
    simp only [exec, execSti, hp']
    rfl
  · obtain ⟨ha, hn⟩ := noInput_of_memRead_none hnone
    exact absurd hn (hlive (decide_eq_true ha))

/-- GETC after a move. -/
theorem execTrapGetc_effect (m : ConsoleMove) {ign : BitVec 4} {s t : State} (hopen : s.inEnd = false)
    (hlive : ¬ s.noInput) (h : execTrapGetc ign s = .next t) :
    execTrapGetc ign (m.effect s) = .next (m.effect t) := by
  rcases execTrapGetc_cases h with ⟨b, rest, hq, rfl⟩ | ⟨-, hend, -⟩ | ⟨hn, -⟩
  · have hq' : (trapEntry s).inQ = b :: rest := by rwa [trapEntry_inQ]
    simp only [execTrapGetc, trapEntry_effect, inByte_effect m hq', receiveByte_effect]
  · rw [hopen] at hend
    cases hend
  · exact absurd hn hlive

/-- The second step of IN after a move (R100). -/
theorem inSecondStep_effect (m : ConsoleMove) {s t : State} (hopen : s.inEnd = false) (hlive : ¬ s.noInput)
    (h : inSecondStep s = .next t) : inSecondStep (m.effect s) = .next (m.effect t) := by
  rcases inSecondStep_cases h with ⟨b, rest, hq, rfl⟩ | ⟨-, hend, -⟩ | ⟨hn, -⟩
  · simp only [inSecondStep, inByte_effect m hq, outByte_effect, receiveByte_effect]
    rfl
  · rw [hopen] at hend
    cases hend
  · exact absurd hn hlive

/-- An instruction that does not hold commutes with a move: it looks at the input only to take a byte. -/
theorem exec_effect (m : ConsoleMove) {i : Instr} {s t : State} (hopen : s.inEnd = false)
    (hlive : takesInput i s = true → ¬ s.noInput) (h : exec i s = .next t) :
    exec i (m.effect s) = .next (m.effect t) := by
  cases i with
  | ld | ldr => exact loadFrom_effect m hopen (fun ha => hlive (decide_eq_true ha)) h
  | ldi => exact exec_ldi_effect m hopen hlive h
  | sti => exact exec_sti_effect m hopen hlive h
  | trapGetc ign => exact execTrapGetc_effect (ign := ign) m hopen (hlive rfl) h
  | add | addi | and | andi | not | lea | st | str | jmp | jsr | jsrr | rti | res | trapOther =>
    cases h
    rfl
  | br =>
    cases h
    simp only [exec, execBr, apply_ite m.effect]
    rfl
  | trapOut | trapIn | trapHalt =>
    cases h
    simp only [exec, execTrapOut, execTrapIn, execTrapHalt, trapEntry_effect]
    rfl
  | trapPuts | trapPutsp =>
    cases h
    simp only [exec, execTrapPuts, execTrapPutsp, trapEntry_effect, puts_effect, putsp_effect]

/-! ## The step after a move -/

/-- A step that does not hold commutes with a move (R76): run an instruction, poll at 0xFE00, or end IN. -/
theorem step_effect (m : ConsoleMove) {s t : State} (hopen : s.inEnd = false) (hlive : ¬ s.holds)
    (h : step s = .next t) : step (m.effect s) = .next (m.effect t) := by
  rcases step_cases h with
    ⟨hrun, hpc, hexec⟩ | ⟨hrun, hpc, -, u, hpoll, hu, -⟩ | ⟨hrun, hpc, hn, -⟩ | ⟨hwait, hin⟩
  · rw [step_plain (s := m.effect s) hrun hpc]
    refine exec_effect m (s := s.jumpTo (s.pc + 1#16)) hopen (fun htakes hn => ?_) hexec
    exact hlive ⟨hn, .inl ⟨hrun, .inr htakes⟩⟩
  · have hstep : step (m.effect s) =
        exec (decodeWord (u.mem.read Config.kbsrAddr)) (m.effect (u.jumpTo (u.pc + 1#16))) :=
      step_fetchPolled (s := m.effect s) hrun hpc (poll_effect m hopen hpoll)
    rw [step_fetchPolled hrun hpc hpoll] at h
    rcases hu.kbsr with hk | hk <;> rw [hk] at h hstep
    · rw [exec_ready] at h
      cases h
      exact hstep.trans (exec_ready _)
    · rw [exec_zero] at h
      cases h
      exact hstep.trans (exec_zero _)
  · exact absurd ⟨hn, .inl ⟨hrun, .inl hpc⟩⟩ hlive
  · rw [step_inWait (s := m.effect s) hwait]
    exact inSecondStep_effect m hopen (fun hn => hlive ⟨hn, .inr hwait⟩) hin

/-- Settles O50: a move needs an open input, and a step leaves it open. -/
theorem hostMovesCommuteWithSteps : Obligations.HostMovesCommuteWithSteps := by
  intro s t s' m hlive hstep hmove
  obtain ⟨hopen, -⟩ := ConsoleMove.apply_cases hmove
  obtain ⟨-, htend, -⟩ := stepsTakeInputInOrderAndOnlyAppendOutput s t hstep
  rw [m.apply_eq hopen] at hmove
  cases hmove
  exact ⟨m.effect t, step_effect m hopen hlive hstep, m.apply_eq (htend.trans hopen)⟩

end Sys2Proof.Machine
end

section
/-! SUPPORT. The operate instructions (41_operate.md R78 to R80): the meaning of each is one `writeDest`
of a value formed in the state before it, so the rule of `writeDest` is the whole of each claim, the
cases where DR is also a source included. -/

namespace Sys2Proof.Machine

/-- Settles O12: each form of ADD writes its sum by `writeDest`. -/
theorem addWritesSumAndFlags : Obligations.AddWritesSumAndFlags := fun s dr sr1 =>
  ⟨fun sr2 _ => resultIn_writeDest dr (s.readReg sr1 + s.readReg sr2) s,
    fun imm => resultIn_writeDest dr (s.readReg sr1 + sext imm) s⟩

/-- Settles O13: each form of AND writes its conjunction by `writeDest`. -/
theorem andWritesConjunctionAndFlags : Obligations.AndWritesConjunctionAndFlags := fun s dr sr1 =>
  ⟨fun sr2 _ => resultIn_writeDest dr (s.readReg sr1 &&& s.readReg sr2) s,
    fun imm => resultIn_writeDest dr (s.readReg sr1 &&& sext imm) s⟩

/-- Settles O14: NOT writes the complement by `writeDest`, which takes the flag from the new DR. -/
theorem notWritesComplementAndFlags : Obligations.NotWritesComplementAndFlags := fun s dr sr _ =>
  resultIn_writeDest dr (~~~ s.readReg sr) s

end Sys2Proof.Machine
end

section
/-! SUPPORT. The control instructions (42_control.md R81 to R84): the meaning of each is one jump, from
the state before it or, for JSR and JSRR, from the state `saveReturn` leaves. So their frame is that of
`saveReturn` and of a jump, and what is BR's own is when its test is met. -/

namespace Sys2Proof.Machine

/-! ## The frame -/

theorem SameBesidePc.refl (s : State) : SameBesidePc [] s s :=
  ⟨fun _ _ => rfl, fun _ _ => rfl, rfl, ⟨rfl, rfl, rfl⟩, rfl, rfl⟩

/-- A jump moves PC only. -/
theorem SameBesidePc.jumpTo {rs : List Reg} {s t : State} (h : SameBesidePc rs s t) (target : Word) :
    SameBesidePc rs s (t.jumpTo target) := h

/-- The return address goes to R7 and nowhere else; COND is kept (R18, C1). -/
theorem sameBesidePc_saveReturn (s : State) : SameBesidePc [7#3] s (saveReturn s) := by
  refine ⟨fun r hr => ?_, fun _ _ => rfl, rfl, ⟨rfl, rfl, rfl⟩, rfl, rfl⟩
  rw [saveReturn_readReg, if_neg fun h7 => hr (List.mem_singleton.mpr h7)]

/-! ## Branch's test -/

/-- With all three mask bits and one flag set the branch is taken (R81). -/
theorem branchTaken_allMask {c : Word} (h : OneFlag c) : branchTaken true true true c = true := by
  rcases h with rfl | rfl | rfl <;> decide

/-- With no mask bit the branch is never taken (R81). -/
theorem branchTaken_noMask (c : Word) : branchTaken false false false c = false :=
  branchTaken_eq false false false c

/-! ## The instructions -/

/-- Settles O15, by the two outcomes of the test: a jump, or the state as it was. -/
theorem branchFollowsItsMask : Obligations.BranchFollowsItsMask := by
  intro s n z p off
  refine ⟨if branchTaken n z p s.cond then s.jumpTo (pcRelative off s) else s, rfl, ?_⟩
  rw [← branchTaken_eq]
  cases htaken : branchTaken n z p s.cond with
  | true =>
    refine ⟨(SameBesidePc.refl s).jumpTo _, fun _ => rfl, nofun, fun _ _ _ _ => rfl, ?_⟩
    rintro rfl rfl rfl
    simp [branchTaken_noMask] at htaken
  | false =>
    refine ⟨.refl s, nofun, fun _ => rfl, ?_, fun _ _ _ => rfl⟩
    rintro rfl rfl rfl hflag
    simp [branchTaken_allMask hflag] at htaken

/-- Settles O16: a jump to the base register. -/
theorem jumpGoesToTheBaseRegister : Obligations.JumpGoesToTheBaseRegister := fun s base _ _ =>
  ⟨s.jumpTo (s.readReg base), rfl, rfl, (SameBesidePc.refl s).jumpTo _⟩

/-- Settles O17: `saveReturn` keeps PC, so the target is relative to the post-fetch PC. -/
theorem jsrSavesReturnAddressAndJumps : Obligations.JsrSavesReturnAddressAndJumps := fun s off =>
  ⟨(saveReturn s).jumpTo (pcRelative off (saveReturn s)), rfl, by simp, rfl,
    (sameBesidePc_saveReturn s).jumpTo _⟩

/-- Settles O18: BaseR is read after `saveReturn`, which is the return address exactly for R7. -/
theorem jsrrWritesR7BeforeItReadsBase : Obligations.JsrrWritesR7BeforeItReadsBase := fun s base _ _ =>
  ⟨(saveReturn s).jumpTo ((saveReturn s).readReg base), rfl, by simp, saveReturn_readReg s base,
    (sameBesidePc_saveReturn s).jumpTo _⟩

end Sys2Proof.Machine
end

section
/-! SUPPORT. The load instructions (43_load.md R85 to R88). LD, LDR and LDI's second read are one
`loadFrom`, whose address is beside 0xFE00 or polls there; LDI's pointer read may poll instead, and then
the value's read does not. -/

namespace Sys2Proof.Machine

/-- A load whose address is that of KBSR, with input at hand or ended, polls (R31). -/
theorem loadFrom_polledAt (dr : Reg) {addr : Word} {t s : State} (ha : addr = Config.kbsrAddr)
    (hlive : ¬ t.noInput) :
    ∃ u, PolledTo t u ∧ ResultIn (loadFrom dr addr t s) dr (u.mem.read Config.kbsrAddr) u := by
  subst ha
  exact loadFrom_polled dr hlive

/-- LDI goes on with a load through the pointer it read (R86). -/
theorem exec_ldi_of_pointerRead (dr : Reg) {off : BitVec 9} {p : Word} {s t : State}
    (hp : memRead (pcRelative off s) s = some (p, t)) : exec (.ldi dr off) s = loadFrom dr p t s := by
  simp only [exec, execLdi, hp]

/-- Settles O19: LD is one load at the PC-relative address. -/
theorem ldLoadsTheWord : Obligations.LdLoadsTheWord := fun _ dr _ =>
  ⟨loadFrom_plain dr, loadFrom_polledAt dr⟩

/-- Settles O20: LDR is one load, whose address is formed from the state before DR is written. -/
theorem ldrLoadsTheWord : Obligations.LdrLoadsTheWord := fun _ dr _ _ =>
  ⟨loadFrom_plain dr, loadFrom_polledAt dr⟩

/-- Settles O21, by the read that polls: neither, the value's, or the pointer's, after which the pointer
is the new KBSR word and so no pointer to KBSR. -/
theorem ldiLoadsThroughThePointer : Obligations.LdiLoadsThroughThePointer := by
  intro s dr off
  refine ⟨fun ha hptr => ?_, fun ha hptr hlive => ?_, fun ha hlive => ?_⟩
  · rw [exec_ldi_of_pointerRead dr (memRead_plain ha)]
    exact loadFrom_plain dr hptr
  · rw [exec_ldi_of_pointerRead dr (memRead_plain ha)]
    exact loadFrom_polledAt dr hptr hlive
  · obtain ⟨u, hu, hm⟩ := memRead_polled hlive
    have hp : memRead (pcRelative off s) s = some (u.mem.read Config.kbsrAddr, u) := by
      rwa [show pcRelative off s = Config.kbsrAddr from ha]
    rw [exec_ldi_of_pointerRead dr hp]
    exact ⟨u, hu, loadFrom_plain dr hu.kbsr_ne⟩

/-- Settles O22: LEA writes the address itself by `writeDest` and reads no memory. -/
theorem leaLoadsTheAddressAndSetsFlags : Obligations.LeaLoadsTheAddressAndSetsFlags := fun s dr off =>
  resultIn_writeDest dr (s.pc + sext off) s

end Sys2Proof.Machine
end

section
/-! SUPPORT. The store instructions (44_store.md R89 to R91). Each ends in one `memWrite`, so the rule of
`memWrite` is the whole of ST's and STR's claims; STI's pointer read comes before it, and its poll changes
no register. -/

namespace Sys2Proof.Machine

/-- STI stores at the pointer it read the word SR held before that read (R90). -/
theorem storedIn_sti_of_pointerRead (sr : Reg) {off : BitVec 9} {p : Word} {s t : State}
    (hp : memRead (pcRelative off s) s = some (p, t)) :
    StoredIn (exec (.sti sr off) s) p (s.readReg sr) t := by
  obtain ⟨hregs, -⟩ := memRead_frame hp
  simp only [exec, execSti, hp, hregs]
  exact storedIn_memWrite p (s.readReg sr) t

/-- Settles O23: ST is one `memWrite` at the PC-relative address. -/
theorem stStoresAtThePcRelativeAddress : Obligations.StStoresAtThePcRelativeAddress := fun s sr off =>
  storedIn_memWrite (s.pc + sext off) (s.readReg sr) s

/-- Settles O24: STR is one `memWrite`, its data and its base both read before it. -/
theorem strStoresAtTheBaseOffsetAddress : Obligations.StrStoresAtTheBaseOffsetAddress :=
  fun s sr base off => storedIn_memWrite (s.readReg base + sext off) (s.readReg sr) s

/-- Settles O25, by the pointer's address: beside KBSR the read changes nothing, at KBSR it polls. -/
theorem stiStoresThroughThePointer : Obligations.StiStoresThroughThePointer := by
  intro s sr off
  refine ⟨fun ha => storedIn_sti_of_pointerRead sr (memRead_plain ha), fun ha hlive => ?_⟩
  obtain ⟨u, hu, hm⟩ := memRead_polled hlive
  have hp : memRead (pcRelative off s) s = some (u.mem.read Config.kbsrAddr, u) := by
    rwa [show pcRelative off s = Config.kbsrAddr from ha]
  exact ⟨u, hu, storedIn_sti_of_pointerRead sr hp⟩

end Sys2Proof.Machine
end

section
/-! SUPPORT. The trap services beside the string scans (45_trap.md R92 to R103). A service begins in the
state `trapEntry` leaves, so what all services keep is said once of that state; the updates a service then
makes to the output and the run state change none of it. -/

namespace Sys2Proof.Machine

/-! ## What every service keeps -/

/-- What a service that takes no input leaves of `s`: R7 is as TRAP_WRITES_R7 says, and all but R7, the
output and the run state is as before (R93). -/
abbrev ServiceFrame (s t : State) : Prop :=
  t.readReg 7#3 = trapR7 s ∧ SameRegsBut [7#3] s t ∧ SameCore s t ∧ t.inQ = s.inQ ∧ t.cond = s.cond

theorem trapEntry_readR7 (s : State) : (trapEntry s).readReg 7#3 = trapR7 s := by
  simp [trapR7]

theorem trapEntry_readReg_of_ne (s : State) {r : Reg} (h : r ≠ 7#3) :
    (trapEntry s).readReg r = s.readReg r := by
  rw [trapEntry_readReg, if_neg fun h7 => h h7.1]

theorem sameCore_trapEntry (s : State) : SameCore s (trapEntry s) :=
  ⟨trapEntry_pc s, fun _ _ => by rw [trapEntry_mem], trapEntry_inEnd s, trapEntry_params s⟩

theorem serviceFrame_trapEntry (s : State) : ServiceFrame s (trapEntry s) :=
  ⟨trapEntry_readR7 s, fun _ hr => trapEntry_readReg_of_ne s (List.ne_of_not_mem_cons hr),
    sameCore_trapEntry s, trapEntry_inQ s, trapEntry_cond s⟩

/-! ## OUT, HALT and the first step of IN -/

/-- Settles O29. -/
theorem outAppendsLowByteOfR0 : Obligations.OutAppendsLowByteOfR0 := by
  intro s ign
  obtain ⟨h7, hregs, hcore, hinQ, hcond⟩ := serviceFrame_trapEntry s
  refine ⟨outByte (lowByte ((trapEntry s).readReg 0#3)) (trapEntry s), rfl, ?_, h7, hregs, hcore, hinQ,
    trapEntry_run s, hcond⟩
  rw [outByte_out, trapEntry_out, trapEntry_readReg_of_ne s (by decide)]

/-- Settles O33. -/
theorem inPrintsItsPromptThenWaits : Obligations.InPrintsItsPromptThenWaits := fun s _ =>
  ⟨{ outBytes s.params.inPrompt (trapEntry s) with run := .inWait }, rfl,
    congrArg (· ++ s.params.inPrompt.map OutEvent.byte) (trapEntry_out s), rfl, serviceFrame_trapEntry s⟩

/-- Settles O35. -/
theorem haltFlushesAndStops : Obligations.HaltFlushesAndStops := fun s _ =>
  ⟨halt (flush (trapEntry s)), rfl, congrArg (· ++ [OutEvent.flushMark]) (trapEntry_out s), rfl,
    serviceFrame_trapEntry s⟩

/-! ## GETC and the second step of IN -/

/-- A received byte sets COND exactly when TRAP_INPUT_SETS_FLAGS is true (R18). -/
theorem receiveByte_flags (b : Byte) {s u : State} (hparams : u.params = s.params) (hcond : u.cond = s.cond) :
    if s.params.trapInputSetsFlags = true then FlagsOf (zext8 b) (receiveByte b u).cond
    else (receiveByte b u).cond = s.cond := by
  rw [receiveByte_cond, hparams, hcond]
  split
  · exact flagsOf_condOf (zext8 b)
  · rfl

theorem receiveByte_readR0 (b : Byte) (s : State) : (receiveByte b s).readReg 0#3 = zext8 b := by
  rw [receiveByte_readReg, if_pos rfl]

theorem receiveByte_readReg_of_ne (b : Byte) (s : State) {r : Reg} (h : r ≠ 0#3) :
    (receiveByte b s).readReg r = s.readReg r := by
  rw [receiveByte_readReg, if_neg h]

theorem SameCore.receiveByte {s u : State} (h : SameCore s u) (b : Byte) : SameCore s (receiveByte b u) := by
  obtain ⟨hpc, hmem, hend, hparams⟩ := h
  refine ⟨(receiveByte_pc b u).trans hpc, fun a ha => ?_, (receiveByte_inEnd b u).trans hend,
    (receiveByte_params b u).trans hparams⟩
  rw [receiveByte_mem, hmem a ha]

/-- The fault is the only change a fatal condition makes (R107). -/
theorem faultedFrom_raiseFault (c : FatalCondition) (s : State) : FaultedFrom c s (raiseFault c s) :=
  ⟨rfl, fun _ _ => rfl, rfl, rfl, fun _ _ => rfl, ⟨rfl, rfl, rfl⟩, rfl⟩

theorem exec_trapGetc_byte (ign : BitVec 4) {s : State} {b : Byte} {rest : List Byte}
    (hq : s.inQ = b :: rest) :
    exec (.trapGetc ign) s = .next (receiveByte b { trapEntry s with inQ := rest }) := by
  simp only [exec, execTrapGetc, inByte_cons ((trapEntry_inQ s).trans hq)]

theorem exec_trapGetc_end (ign : BitVec 4) {s : State} (hq : s.inQ = []) (he : s.inEnd = true) :
    exec (.trapGetc ign) s = .next (raiseFault (.inputExhausted 0x20#8 (instrAddr s)) (trapEntry s)) := by
  simp only [exec, execTrapGetc, inByte_end ((trapEntry_inQ s).trans hq) ((trapEntry_inEnd s).trans he)]

/-- Settles O27: the byte is received in the state the TRAP's entry left, whose R7 is not R0. -/
theorem getcTakesOneByte : Obligations.GetcTakesOneByte := by
  intro s ign b rest hq
  refine ⟨_, exec_trapGetc_byte ign hq, receiveByte_readR0 b _, ?_, fun r hr => ?_,
    SameCore.receiveByte (u := { trapEntry s with inQ := rest }) (sameCore_trapEntry s) b,
    receiveByte_inQ b _, (receiveByte_out b _).trans (trapEntry_out s),
    (receiveByte_run b _).trans (trapEntry_run s),
    receiveByte_flags b (trapEntry_params s) (trapEntry_cond s)⟩
  · exact (receiveByte_readReg_of_ne b _ (by decide)).trans (trapEntry_readR7 s)
  · obtain ⟨hr0, hr7⟩ : r ≠ 0#3 ∧ r ≠ 7#3 := by simpa using hr
    exact (receiveByte_readReg_of_ne b _ hr0).trans (trapEntry_readReg_of_ne s hr7)

/-- Settles O28: the fault is raised in the state the TRAP's entry left. -/
theorem getcAtEndOfInputFaults : Obligations.GetcAtEndOfInputFaults := by
  intro s ign hq he
  obtain ⟨h7, hregs, hcore, hinQ, hcond⟩ := serviceFrame_trapEntry s
  exact ⟨_, exec_trapGetc_end ign hq he, rfl, h7, hregs, hcore, hinQ.trans hq, trapEntry_out s, hcond⟩

/-- Settles O34: the second step of IN meets a byte or the end of the input. -/
theorem inWaitEchoesAndStoresOneByte : Obligations.InWaitEchoesAndStoresOneByte := by
  intro s hwait
  refine ⟨fun b rest hq => ?_, fun hq he => ?_⟩
  · have hstep : step s =
        .next { receiveByte b (outByte b { s with inQ := rest }) with run := .running } := by
      rw [step_inWait hwait, inSecondStep, inByte_cons hq]
    have hcore : SameCore s (outByte b { s with inQ := rest }) := ⟨rfl, fun _ _ => rfl, rfl, rfl⟩
    exact ⟨_, hstep, receiveByte_out b _, receiveByte_readR0 b _, rfl,
      fun r hr => receiveByte_readReg_of_ne b _ (List.ne_of_not_mem_cons hr),
      hcore.receiveByte b, receiveByte_inQ b _, receiveByte_flags b rfl rfl⟩
  · refine ⟨_, ?_, faultedFrom_raiseFault _ s⟩
    rw [step_inWait hwait, inSecondStep, inByte_end hq he]
    rfl

/-! ## The other vectors -/

/-- The row of a word is the instruction it decodes to: both have its bits. -/
theorem decodeWord_eq_of_decodesTo {w : Word} {i : Instr} (h : DecodesTo w i) : decodeWord w = i :=
  (congrArg decodeWord h.encode_eq).symm.trans (decodeWord_encode h.wf)

/-- The vectors of the services are 0x20 to 0x25 (R92). -/
theorem not_isServiceVector_of_outside {v : Byte} (h : v < 0x20#8 ∨ 0x25#8 < v) :
    ¬ isServiceVector v = true := by
  rw [isServiceVector_iff]
  bv_omega

/-- Settles O36: the word's row is TRAP_OTHER, whose meaning is the fault with that word. -/
theorem otherTrapVectorsFault : Obligations.OtherTrapVectorsFault := by
  intro s w hop hv
  have hrow : DecodesTo w (.trapOther (field11to8 w) (lowByte w)) :=
    .trapOther hop (not_isServiceVector_of_outside hv)
  have hdecode := decodeWord_eq_of_decodesTo hrow
  refine ⟨⟨_, hdecode⟩, _, ?_, faultedFrom_raiseFault _ s⟩
  simp only [hdecode, exec, execTrapOther, hrow.encode_eq, instrAddr]

end Sys2Proof.Machine
end

section
/-! SUPPORT. PUTS and PUTSP (45_trap.md R95, R98, R101). A scan that passes a run of words outputs their
bytes and goes on behind them; it ends at a zero word, at 0xFE00, or, for PUTSP, at a zero high byte. The
first such place gives each claim its number of words. -/

namespace Sys2Proof.Machine

/-! ## A scan over a run of words -/

/-- The bytes a scan outputs for `n` words from `a`, each word giving those of `emit`. -/
def scanBytes (emit : Word → List Byte) (m : Memory) (a : Word) (n : Nat) : List Byte :=
  (List.range n).flatMap fun k => emit (wordAt m a k)

theorem scanBytes_succ (emit : Word → List Byte) (m : Memory) (a : Word) (n : Nat) :
    scanBytes emit m a (n + 1) = scanBytes emit m a n ++ emit (wordAt m a n) := by
  simp [scanBytes, List.range_succ]

/-- The byte PUTS outputs for one word it passes (R98). -/
def plainBytes (w : Word) : List Byte := [lowByte w]

/-- The bytes PUTSP outputs for one word it passes (R101). -/
def packedBytes (w : Word) : List Byte :=
  if highByte w = 0x00#8 then [lowByte w] else [lowByte w, highByte w]

theorem putsOutput_eq (m : Memory) (a : Word) (n : Nat) :
    putsOutput m a n = (scanBytes plainBytes m a n).map .byte := by
  simp only [putsOutput, scanBytes, plainBytes, ← List.map_eq_flatMap, List.map_map, Function.comp_def]

theorem putspOutput_eq (m : Memory) (a : Word) (n : Nat) :
    putspOutput m a n = (scanBytes packedBytes m a n).map .byte := by
  have hword (w : Word) : packedOutput w = (packedBytes w).map .byte := by
    unfold packedOutput packedBytes
    split <;> rfl
  simp only [putspOutput, scanBytes, List.map_flatMap, hword]

theorem StringScan.after_after (bs cs : List Byte) (r : StringScan) :
    (r.after cs).after bs = r.after (bs ++ cs) := by
  simp [StringScan.after]

/-- A scan that passes each of `n` words outputs their bytes and goes on behind them. -/
theorem scan_passes {scan : Word → StringScan} {emit : Word → List Byte} {m : Memory} {a : Word} {n : Nat}
    (hpass : ∀ k < n, scan (a + BitVec.ofNat 16 k) =
      (scan (a + BitVec.ofNat 16 k + 1#16)).after (emit (wordAt m a k))) :
    scan a = (scan (a + BitVec.ofNat 16 n)).after (scanBytes emit m a n) := by
  induction n with
  | zero => simp [scanBytes, StringScan.after]
  | succ n ih =>
    have hnext : a + BitVec.ofNat 16 n + 1#16 = a + BitVec.ofNat 16 (n + 1) := by
      rw [BitVec.ofNat_add, add_assoc]
    rw [ih fun k hk => hpass k (by omega), hpass n (by omega), hnext, StringScan.after_after,
      ← scanBytes_succ]

/-! ## PUTS -/

section
variable {m : Memory} {a b : Word} {n : Nat}

theorem putsScan_nonzero (hne : b ≠ Config.kbsrAddr) (hword : m.read b ≠ 0x0000#16) :
    putsScan m Config.memWords b =
      (putsScan m Config.memWords (b + 1#16)).after (plainBytes (m.read b)) := by
  rw [putsScan_turn m hne, if_neg hword, plainBytes]

theorem putsScan_zero (hne : b ≠ Config.kbsrAddr) (hword : m.read b = 0x0000#16) :
    putsScan m Config.memWords b = ⟨[], true⟩ := by
  rw [putsScan_turn m hne, if_pos hword]

theorem putsScan_passes (hrun : NonzeroRun m a n) :
    putsScan m Config.memWords a =
      (putsScan m Config.memWords (a + BitVec.ofNat 16 n)).after (scanBytes plainBytes m a n) :=
  scan_passes fun k hk => by
    obtain ⟨hne, hword⟩ := hrun k hk
    exact putsScan_nonzero hne hword

theorem putsScan_atZero (hrun : NonzeroRun m a n) (hne : a + BitVec.ofNat 16 n ≠ Config.kbsrAddr)
    (hword : wordAt m a n = 0x0000#16) :
    putsScan m Config.memWords a = ⟨scanBytes plainBytes m a n, true⟩ := by
  rw [putsScan_passes hrun, putsScan_zero hne hword]
  simp [StringScan.after]

theorem putsScan_atKbsr (hrun : NonzeroRun m a n) (hk : a + BitVec.ofNat 16 n = Config.kbsrAddr) :
    putsScan m Config.memWords a = ⟨scanBytes plainBytes m a n, false⟩ := by
  rw [putsScan_passes hrun, hk, putsScan_kbsr]
  simp [StringScan.after]

/-! ## PUTSP -/

variable {z : Bool}

/-- A turn that passes a word outputs its packed bytes (R101). -/
theorem putspScan_pass (hne : b ≠ Config.kbsrAddr) (hword : m.read b ≠ 0x0000#16)
    (hhigh : z = true → highByte (m.read b) ≠ 0x00#8) :
    putspScan z m Config.memWords b =
      (putspScan z m Config.memWords (b + 1#16)).after (packedBytes (m.read b)) := by
  rw [putspScan_turn z m hne, if_neg hword, packedBytes]
  by_cases hzero : highByte (m.read b) = 0x00#8
  · have hz : ¬ z = true := fun h => hhigh h hzero
    rw [if_pos hzero, if_pos hzero, if_neg hz]
  · rw [if_neg hzero, if_neg hzero]

theorem putspScan_zero (hne : b ≠ Config.kbsrAddr) (hword : m.read b = 0x0000#16) :
    putspScan z m Config.memWords b = ⟨[], true⟩ := by
  rw [putspScan_turn z m hne, if_pos hword]

/-- The word whose zero high byte ends the string still gives its low byte (R101). -/
theorem putspScan_zeroHigh (hne : b ≠ Config.kbsrAddr) (hword : m.read b ≠ 0x0000#16) (hz : z = true)
    (hend : highByte (m.read b) = 0x00#8) :
    putspScan z m Config.memWords b = ⟨packedBytes (m.read b), true⟩ := by
  rw [putspScan_turn z m hne, if_neg hword, if_pos hend, if_pos hz, packedBytes, if_pos hend]

theorem putspScan_passes (hrun : NonzeroRun m a n)
    (hhigh : z = true → ∀ k < n, highByte (wordAt m a k) ≠ 0x00#8) :
    putspScan z m Config.memWords a =
      (putspScan z m Config.memWords (a + BitVec.ofNat 16 n)).after (scanBytes packedBytes m a n) :=
  scan_passes fun k hk => by
    obtain ⟨hne, hword⟩ := hrun k hk
    exact putspScan_pass hne hword fun hz => hhigh hz k hk

theorem putspScan_atZero (hrun : NonzeroRun m a n)
    (hhigh : z = true → ∀ k < n, highByte (wordAt m a k) ≠ 0x00#8)
    (hne : a + BitVec.ofNat 16 n ≠ Config.kbsrAddr) (hword : wordAt m a n = 0x0000#16) :
    putspScan z m Config.memWords a = ⟨scanBytes packedBytes m a n, true⟩ := by
  rw [putspScan_passes hrun hhigh, putspScan_zero hne hword]
  simp [StringScan.after]

theorem putspScan_atZeroHigh (hrun : NonzeroRun m a n)
    (hhigh : z = true → ∀ k < n, highByte (wordAt m a k) ≠ 0x00#8)
    (hne : a + BitVec.ofNat 16 n ≠ Config.kbsrAddr) (hword : wordAt m a n ≠ 0x0000#16)
    (hz : z = true) (hend : highByte (wordAt m a n) = 0x00#8) :
    putspScan z m Config.memWords a = ⟨scanBytes packedBytes m a (n + 1), true⟩ := by
  rw [putspScan_passes hrun hhigh, putspScan_zeroHigh hne hword hz hend, scanBytes_succ]
  rfl

theorem putspScan_atKbsr (hrun : NonzeroRun m a n)
    (hhigh : z = true → ∀ k < n, highByte (wordAt m a k) ≠ 0x00#8)
    (hk : a + BitVec.ofNat 16 n = Config.kbsrAddr) :
    putspScan z m Config.memWords a = ⟨scanBytes packedBytes m a n, false⟩ := by
  rw [putspScan_passes hrun hhigh, hk, putspScan_kbsr]
  simp [StringScan.after]

end

/-! ## What a scan prints -/

theorem exec_trapPuts (ign : BitVec 4) (s : State) : exec (.trapPuts ign) s =
    .next (printScan (putsScan s.mem Config.memWords (s.readReg 0#3)) (trapEntry s)) := by
  simp only [exec, execTrapPuts, puts, trapEntry_mem, trapEntry_readReg_of_ne s (r := 0#3) (by decide)]

theorem exec_trapPutsp (ign : BitVec 4) (s : State) : exec (.trapPutsp ign) s =
    .next (printScan (putspScan s.params.putspZeroHighEnds s.mem Config.memWords (s.readReg 0#3))
      (trapEntry s)) := by
  simp only [exec, execTrapPutsp, putsp, trapEntry_mem, trapEntry_params,
    trapEntry_readReg_of_ne s (r := 0#3) (by decide)]

theorem serviceFrame_printScan (r : StringScan) (s : State) : ServiceFrame s (printScan r (trapEntry s)) := by
  unfold printScan
  split <;> exact serviceFrame_trapEntry s

/-- A scan that met the string's end prints its bytes and a flush mark (R98, R101). -/
theorem printScan_ended (bs : List Byte) (s : State) :
    (printScan ⟨bs, true⟩ (trapEntry s)).out = s.out ++ bs.map .byte ++ [.flushMark] ∧
    (printScan ⟨bs, true⟩ (trapEntry s)).run = s.run := by
  simp [printScan]

/-- A scan that met 0xFE00 prints its bytes and faults (R95). -/
theorem printScan_atKbsr (bs : List Byte) (s : State) :
    (printScan ⟨bs, false⟩ (trapEntry s)).out = s.out ++ bs.map .byte ∧
    (printScan ⟨bs, false⟩ (trapEntry s)).run =
      .faulted (.stringReadOfDevice Config.kbsrAddr (s.pc - 1#16)) := by
  simp [printScan, instrAddr]

/-- Settles O30, by the scan's end. -/
theorem putsPrintsTheString : Obligations.PutsPrintsTheString := by
  intro s ign n hrun
  rw [exec_trapPuts, putsOutput_eq]
  refine ⟨fun hne hword => ?_, fun hk => ?_⟩
  · rw [putsScan_atZero hrun hne hword]
    obtain ⟨hout, hrunState⟩ := printScan_ended (scanBytes plainBytes s.mem (s.readReg 0#3) n) s
    exact ⟨_, rfl, hout, hrunState, serviceFrame_printScan _ s⟩
  · rw [putsScan_atKbsr hrun hk]
    obtain ⟨hout, hrunState⟩ := printScan_atKbsr (scanBytes plainBytes s.mem (s.readReg 0#3) n) s
    exact ⟨_, rfl, hout, hrunState, serviceFrame_printScan _ s⟩

/-- Settles O32, by the scan's end. -/
theorem putspPrintsThePackedString : Obligations.PutspPrintsThePackedString := by
  intro s ign n hrun hhigh
  obtain ⟨h7, hregs, hcore, hinQ, hcond⟩ := serviceFrame_printScan
    (putspScan s.params.putspZeroHighEnds s.mem Config.memWords (s.readReg 0#3)) s
  refine ⟨_, exec_trapPutsp ign s, h7, hregs, hcore, hinQ, hcond, fun hk => ?_, fun hne hword => ?_,
    fun hne hword hz hend => ?_⟩
  · rw [putspScan_atKbsr hrun hhigh hk, putspOutput_eq]
    exact printScan_atKbsr _ s
  · rw [putspScan_atZero hrun hhigh hne hword, putspOutput_eq]
    exact printScan_ended _ s
  · rw [putspScan_atZeroHigh hrun hhigh hne hword hz hend, putspOutput_eq]
    exact printScan_ended _ s

/-! ## Where a scan ends -/

/-- The place where a scan stops: 0xFE00, a zero word, or a zero high byte where that ends strings. -/
def ScanStops (z : Bool) (m : Memory) (b : Word) : Prop :=
  b = Config.kbsrAddr ∨ m.read b = 0x0000#16 ∨ (z = true ∧ highByte (m.read b) = 0x00#8)

/-- From every address the wrapping walk meets a stop: 0xFE00 is one (R95). -/
theorem exists_first_scanStop (z : Bool) (m : Memory) (a : Word) :
    ∃ n < 65536, ScanStops z m (a + BitVec.ofNat 16 n) ∧
      ∀ k < n, ¬ ScanStops z m (a + BitVec.ofNat 16 k) := by
  classical
  have hkbsr : ScanStops z m (a + BitVec.ofNat 16 (wordsToKbsr a)) := by
    left
    rw [wordsToKbsr, BitVec.ofNat_toNat, BitVec.setWidth_eq]
    exact add_sub_cancel a Config.kbsrAddr
  have hex : ∃ n, ScanStops z m (a + BitVec.ofNat 16 n) := ⟨_, hkbsr⟩
  exact ⟨Nat.find hex, (Nat.find_min' hex hkbsr).trans_lt (wordsToKbsr_lt a), Nat.find_spec hex,
    fun _ => Nat.find_min hex⟩

/-- The words before the first stop are a run that both services pass. -/
theorem nonzeroRun_of_not_scanStops {z : Bool} {m : Memory} {a : Word} {n : Nat}
    (h : ∀ k < n, ¬ ScanStops z m (a + BitVec.ofNat 16 k)) :
    NonzeroRun m a n ∧ (z = true → ∀ k < n, highByte (wordAt m a k) ≠ 0x00#8) := by
  simp only [ScanStops, not_or, not_and] at h
  refine ⟨fun k hk => ?_, fun hz k hk => ?_⟩
  · obtain ⟨hne, hword, -⟩ := h k hk
    exact ⟨hne, hword⟩
  · obtain ⟨-, -, hhigh⟩ := h k hk
    exact hhigh hz

theorem scans_enough (z : Bool) (m : Memory) (a : Word) {fuel : Nat} (h : Config.memWords ≤ fuel) :
    putsScan m fuel a = putsScan m Config.memWords a ∧
    putspScan z m fuel a = putspScan z m Config.memWords a := by
  induction fuel, h using Nat.le_induction with
  | base => exact ⟨rfl, rfl⟩
  | succ fuel hle ih =>
    obtain ⟨hputs, hputsp⟩ := ih
    have henough : wordsToKbsr a ≤ fuel := (wordsToKbsr_lt a).le.trans hle
    exact ⟨(putsScan_enough m fuel a henough).trans hputs,
      (putspScan_enough z m fuel a henough).trans hputsp⟩

/-- Settles O31: O30 and O32 at the first stop. -/
theorem everyStringScanEnds : Obligations.EveryStringScanEnds := by
  refine ⟨fun z m a fuel => scans_enough z m a, fun s ign => ⟨?_, ?_⟩⟩
  · obtain ⟨n, hn, hstop, hbefore⟩ := exists_first_scanStop false s.mem (s.readReg 0#3)
    obtain ⟨hrun, -⟩ := nonzeroRun_of_not_scanStops hbefore
    obtain ⟨hends, hfaults⟩ := putsPrintsTheString s ign n hrun
    by_cases hk : s.readReg 0#3 + BitVec.ofNat 16 n = Config.kbsrAddr
    · obtain ⟨t, hexec, hout, hrunState, -⟩ := hfaults hk
      exact ⟨n, hn, t, hexec, hrun, .inr ⟨hk, hrunState, hout⟩⟩
    · have hword : wordAt s.mem (s.readReg 0#3) n = 0x0000#16 := by simpa [ScanStops, hk, wordAt] using hstop
      obtain ⟨t, hexec, hout, hrunState, -⟩ := hends hk hword
      exact ⟨n, hn, t, hexec, hrun, .inl ⟨hk, hword, hrunState, hout⟩⟩
  · obtain ⟨n, hn, hstop, hbefore⟩ :=
      exists_first_scanStop s.params.putspZeroHighEnds s.mem (s.readReg 0#3)
    obtain ⟨hrun, hhigh⟩ := nonzeroRun_of_not_scanStops hbefore
    obtain ⟨t, hexec, -, -, -, -, -, hfaults, hends, hendsHigh⟩ :=
      putspPrintsThePackedString s ign n hrun hhigh
    refine ⟨n, hn, t, hexec, hrun, hhigh, ?_⟩
    by_cases hk : s.readReg 0#3 + BitVec.ofNat 16 n = Config.kbsrAddr
    · obtain ⟨hout, hrunState⟩ := hfaults hk
      exact .inr (.inr ⟨hk, hrunState, hout⟩)
    by_cases hword : wordAt s.mem (s.readReg 0#3) n = 0x0000#16
    · obtain ⟨hout, hrunState⟩ := hends hk hword
      exact .inl ⟨hk, hword, hrunState, hout⟩
    · obtain ⟨hz, hend⟩ := (hstop.resolve_left hk).resolve_left hword
      obtain ⟨hout, hrunState⟩ := hendsHigh hk hword hz hend
      exact .inr (.inl ⟨hk, hz, hword, hend, hrunState, hout⟩)

end Sys2Proof.Machine
end

section
/-! SUPPORT. The statements of 46_unsupported.md (R104, R105): the handler is given only the ignored bits
and records the word it encodes from them, which is the word that was fetched. -/

namespace Sys2Proof.Machine

theorem exec_decodeWord_faultedFrom {w : Word} {i : Instr} {opcode : BitVec 4} {s : State}
    (hrow : DecodesTo w i) (hexec : exec i s = .next (raiseUnsupportedOpcode opcode (encode i) s)) :
    ∃ t, exec (decodeWord w) s = .next t ∧
      FaultedFrom (.unsupportedOpcode opcode w (s.pc - 1#16)) s t := by
  rw [decodeWord_eq_of_decodesTo hrow, hexec, hrow.encode_eq]
  exact ⟨_, rfl, faultedFrom_raiseFault _ s⟩

/-- Settles O37: the word's row is RTI, whose meaning is the fault. -/
theorem rtiFaults : Obligations.RtiFaults := by
  intro s w hop
  have hrow : DecodesTo w (.rti (low12Of w)) := .rti hop
  exact ⟨⟨_, decodeWord_eq_of_decodesTo hrow⟩, exec_decodeWord_faultedFrom hrow rfl⟩

/-- Settles O38: the word's row is RES, whose meaning is the fault. -/
theorem resFaults : Obligations.ResFaults := by
  intro s w hop
  have hrow : DecodesTo w (.res (low12Of w)) := .res hop
  exact ⟨⟨_, decodeWord_eq_of_decodesTo hrow⟩, exec_decodeWord_faultedFrom hrow rfl⟩

end Sys2Proof.Machine
end

section
/-! SUPPORT. The address a fatal condition records (60_exceptions.md R107, R108). -/

namespace Sys2Proof.Machine

/-- A fault the instruction in `s`, the state after the fetch, has left in `t` records that instruction's
address (R77, R108) and has not moved PC. -/
abbrev RecordsInstrAddr (s t : State) : Prop :=
  ∀ c, t.run = .faulted c → c.pc = instrAddr s ∧ t.pc = s.pc

theorem recordsInstrAddr_of_not_faulted {s t : State} (h : ∀ c, t.run ≠ .faulted c) : RecordsInstrAddr s t :=
  fun c hc => absurd hc (h c)

theorem recordsInstrAddr_of_running {s t : State} (hrun : s.run = .running) (h : t.run = s.run) :
    RecordsInstrAddr s t := recordsInstrAddr_of_not_faulted fun c hc => by
  rw [h, hrun] at hc
  cases hc

theorem recordsInstrAddr_raiseFault {c : FatalCondition} {s u : State} (hc : c.pc = instrAddr s)
    (hpc : u.pc = s.pc) : RecordsInstrAddr s (raiseFault c u) := by
  intro d hd
  cases hd
  exact ⟨hc, hpc⟩

theorem recordsInstrAddr_printScan {s u : State} (r : StringScan) (hrun : s.run = .running)
    (hu : u.run = s.run) (hpc : u.pc = s.pc) : RecordsInstrAddr s (printScan r u) := by
  unfold printScan
  split
  · exact recordsInstrAddr_of_running hrun hu
  · exact recordsInstrAddr_raiseFault (congrArg (· - 1#16) hpc) hpc

theorem loadFrom_run {dr : Reg} {addr : Word} {s t w : State} (ht : t.run = s.run)
    (h : loadFrom dr addr t s = .next w) : w.run = s.run := by
  rcases loadFrom_cases dr addr t s with ⟨v, u, hm, e⟩ | ⟨-, e⟩ <;> rw [e] at h <;> cases h
  · obtain ⟨-, -, -, ⟨hrun, -⟩, -⟩ := memRead_frame hm
    exact hrun.trans ht
  · rfl

/-- RTI, RES and the TRAPs that can fault record the address of R77; IN and HALT enter run states of their
own, and every other instruction keeps the run state. -/
theorem exec_recordsInstrAddr {i : Instr} {s t : State} (hrun : s.run = .running)
    (h : exec i s = .next t) : RecordsInstrAddr s t := by
  cases i with
  | rti | res | trapOther =>
    cases h
    exact recordsInstrAddr_raiseFault rfl rfl
  | trapGetc ign =>
    rcases execTrapGetc_cases (ign := ign) h with ⟨b, rest, -, rfl⟩ | ⟨-, -, rfl⟩ | ⟨-, rfl⟩
    · exact recordsInstrAddr_of_running hrun (by simp)
    · exact recordsInstrAddr_raiseFault rfl (trapEntry_pc s)
    · exact recordsInstrAddr_of_running hrun rfl
  | trapPuts | trapPutsp =>
    cases h
    exact recordsInstrAddr_printScan _ hrun (trapEntry_run s) (trapEntry_pc s)
  | trapIn | trapHalt =>
    cases h
    exact recordsInstrAddr_of_not_faulted nofun
  | trapOut =>
    cases h
    exact recordsInstrAddr_of_running hrun (trapEntry_run s)
  | ld | ldr => exact recordsInstrAddr_of_running hrun (loadFrom_run rfl h)
  | ldi dr off =>
    rcases exec_ldi_cases dr off s with ⟨p, u, hp, e⟩ | ⟨-, e⟩ <;> rw [e] at h
    · obtain ⟨-, -, -, ⟨hu, -⟩, -⟩ := memRead_frame hp
      exact recordsInstrAddr_of_running hrun (loadFrom_run hu h)
    · cases h
      exact recordsInstrAddr_of_running hrun rfl
  | sti sr off =>
    rcases exec_sti_cases sr off s with ⟨p, u, hp, e⟩ | ⟨-, e⟩ <;> rw [e] at h <;> cases h
    · obtain ⟨-, -, -, ⟨hu, -⟩, -⟩ := memRead_frame hp
      exact recordsInstrAddr_of_running hrun hu
    · exact recordsInstrAddr_of_running hrun rfl
  | br n z p off =>
    simp only [exec, execBr] at h
    split at h <;> cases h
    · exact recordsInstrAddr_of_running hrun rfl
    · exact recordsInstrAddr_of_running hrun rfl
  | add | addi | and | andi | not | lea | st | str | jmp | jsr | jsrr =>
    cases h
    exact recordsInstrAddr_of_running hrun rfl

/-- After the fetch of a step from `s`, PC is one more and `PC - 1` is the fetched address (R77). -/
theorem RecordsInstrAddr.of_fetch {s u t : State} {c : FatalCondition} (h : RecordsInstrAddr u t)
    (hpc : u.pc = s.pc + 1#16) (hc : t.run = .faulted c) : c.pc = s.pc ∧ t.pc = s.pc + 1#16 := by
  obtain ⟨haddr, ht⟩ := h c hc
  refine ⟨?_, ht.trans hpc⟩
  rw [haddr, instrAddr, hpc, BitVec.add_sub_cancel]

/-- Settles O45, by what a step can do: an instruction's fault, the RTI read at 0xFE00, or no fault. -/
theorem faultsRecordTheInstructionAddress : Obligations.FaultsRecordTheInstructionAddress := by
  intro s t c hrun h hc
  rcases step_cases h with
    ⟨-, -, hexec⟩ | ⟨-, -, -, u, -, hu, ht⟩ | ⟨-, -, -, rfl⟩ | ⟨hwait, -⟩
  · have hrun' : (s.jumpTo (s.pc + 1#16)).run = .running := hrun
    exact (exec_recordsInstrAddr hrun' hexec).of_fetch rfl hc
  · obtain ⟨-, hpc, -, ⟨hrunU, -⟩, -⟩ := hu
    have hfetch : (u.jumpTo (u.pc + 1#16)).pc = s.pc + 1#16 := congrArg (· + 1#16) hpc
    rcases ht with rfl | rfl
    · rw [jumpTo_run, hrunU, hrun] at hc
      cases hc
    · exact (recordsInstrAddr_raiseFault rfl rfl).of_fetch hfetch hc
  · rw [hrun] at hc
    cases hc
  · rw [hrun] at hwait
    cases hwait

end Sys2Proof.Machine
end

section
/-! SUPPORT. The image loader and the launch (70_reset_and_hazards.md R122 to R125). -/

namespace Sys2Proof.Machine

/-! ## The words of an image -/

/-- The loader reads back the words whose bytes make up the image (R124). -/
theorem imageWords_bytesOfWord (ws : List Word) : imageWords (ws.flatMap bytesOfWord) = some ws := by
  induction ws with
  | nil => rfl
  | cons w rest ih =>
    simp only [List.flatMap_cons, bytesOfWord, List.cons_append, List.nil_append, imageWords, ih,
      Option.map_some, wordOfBytes_bytes]

theorem imageWords_of_odd {image : List Byte} (h : image.length % 2 = 1) : imageWords image = none := by
  induction image using imageWords.induct with
  | case1 => cases h
  | case2 => rfl
  | case3 high low rest ih =>
    have hrest : rest.length % 2 = 1 := by simpa [Nat.add_assoc] using h
    rw [imageWords, ih hrest, Option.map_none]

/-! ## The loaded memory -/

theorem loadWords_wf {m : Memory} (h : m.wf) (a : Word) (ws : List Word) : (loadWords m a ws).wf := by
  induction ws generalizing m a with
  | nil => exact h
  | cons w rest ih => exact ih (Memory.wf_write h a w) (a + 1#16)

/-- A list of at most 2^16 words lies in memory from `a` on, the address wrapping; no word of it lies
on another. -/
theorem read_loadWords (m : Memory) (a b : Word) {ws : List Word} (h : ws.length ≤ Config.memWords) :
    (loadWords m a ws).read b = ws.getD (b - a).toNat (m.read b) := by
  induction ws generalizing m a with
  | nil => rfl
  | cons w rest ih =>
    have hrest : rest.length < Config.memWords := h
    rw [loadWords, ih (m.write a w) (a + 1#16) hrest.le, Memory.read_write]
    by_cases hb : b = a
    · subst hb
      have hlast : (b - (b + 1#16)).toNat = 65535 := by bv_omega
      rw [hlast, List.getD_eq_default _ _ (Nat.le_of_lt_succ hrest), if_pos rfl, BitVec.sub_self]
      rfl
    · have hnext : (b - a).toNat = (b - (a + 1#16)).toNat + 1 := by
        rw [sub_add_eq_sub_sub]
        exact toNat_pred (sub_ne_zero.mpr hb)
      rw [hnext, List.getD_cons_succ, if_neg hb]

/-- Words that do not pass 0xFFFF lie from the origin on, and below the origin nothing is loaded (R124). -/
theorem read_loadWords_empty {origin : Word} {words : List Word}
    (h : origin.toNat + words.length ≤ 65536) (a : Word) :
    (loadWords { cells := [] } origin words).read a =
      if origin.toNat ≤ a.toNat then words.getD (a.toNat - origin.toNat) 0x0000#16 else 0x0000#16 := by
  rw [read_loadWords _ _ _ (show words.length ≤ 65536 by omega), Memory.read_empty]
  split
  case isTrue hle => rw [BitVec.toNat_sub_of_le hle]
  case isFalse hlt =>
    have hpast : words.length ≤ (a - origin).toNat := by bv_omega
    exact List.getD_eq_default _ _ hpast

/-! ## The launch -/

/-- The state the run of an admitted image starts in (R122). -/
def launchedState (params : Config.Params) (initGpr : Vector Word 8) (inQ : List Byte) (inEnd : Bool)
    (origin : Word) (words : List Word) : State :=
  { regs := initGpr, pc := origin, cond := condZ, mem := loadWords { cells := [] } origin words,
    run := .running, inQ := inQ, inEnd := inEnd, out := [], params := params }

/-- An image of an origin and words is admitted where the words do not pass 0xFFFF (R124, R125). -/
theorem launch_bytesOfWord (params : Config.Params) (initGpr : Vector Word 8) (inQ : List Byte)
    (inEnd : Bool) (origin : Word) (words : List Word) :
    State.launch params initGpr inQ inEnd ((origin :: words).flatMap bytesOfWord) =
      if origin.toNat + words.length ≤ 65536 then
        .next (launchedState params initGpr inQ inEnd origin words)
      else .refused (.imageNotAdmitted .pastTop) := by
  rw [State.launch, imageWords_bytesOfWord]
  rfl

theorem launchedState_inv {params : Config.Params} (h : params.wf) (initGpr : Vector Word 8)
    (inQ : List Byte) (inEnd : Bool) (origin : Word) (words : List Word) :
    (launchedState params initGpr inQ inEnd origin words).Inv :=
  ⟨.inr (.inl rfl), loadWords_wf Memory.wf_empty origin words, h⟩

/-- Settles O58: the image is admitted, and its words lie in the empty memory from the origin on. -/
theorem launchLoadsTheImage : Obligations.LaunchLoadsTheImage := by
  intro params initGpr inQ inEnd origin words hfits
  have hlaunch := (launch_bytesOfWord params initGpr inQ inEnd origin words).trans (if_pos hfits)
  exact ⟨_, hlaunch, rfl, rfl, rfl, rfl, rfl, rfl, rfl, rfl,
    fun hparams => launchedState_inv hparams initGpr inQ inEnd origin words, read_loadWords_empty hfits⟩

/-- Settles O59: a byte is left over, there is no origin, or the words pass 0xFFFF. -/
theorem launchRefusesOtherImages : Obligations.LaunchRefusesOtherImages := by
  intro params initGpr inQ inEnd
  refine ⟨fun image hodd => ?_, rfl, fun origin words hpast => ?_⟩
  · rw [State.launch, imageWords_of_odd hodd]
  · exact (launch_bytesOfWord ..).trans (if_neg (Nat.not_le.mpr hpast))

end Sys2Proof.Machine
end
